-- ==== Sys2Proof/Word.lean ====
section
/-! DEFINITION. The value types of the engine (spec/00_scope.md R8, R10): an octet, a 64-bit datapath word,
a 32-bit command word, and the all-ones word MASK64. Every value is unsigned; addition of words wraps modulo 2^64
(R11), which is addition of bit vectors. -/

namespace Sys2Proof

/-- An octet (R12). -/
abbrev Byte := BitVec 8

/-- A 64-bit datapath word (R8). -/
abbrev Word := BitVec 64

/-- A 32-bit command word `cw` (R6, R8). -/
abbrev CommandWord := BitVec 32

/-- `MASK64 = 0xffffffffffffffff` (R10). -/
abbrev mask64 : Word := 0xffffffffffffffff#64

end Sys2Proof
end

