-- ==== Sys2Proof/Machine/Codec.lean ====
section
/-! DEFINITION. The word codec (spec/20_memory.md section 1): little-endian conversions between bytes and words,
"pure, total functions" (R50), the only byte order the engine has (R52). -/

namespace Sys2Proof.Machine

/-- The number a byte string stands for, least significant byte first (R50, R52). -/
def littleEndian (bytes : List Byte) : Nat :=
  bytes.foldr (fun b rest => b.toNat + 256 * rest) 0

/-- Bits `[8k+7:8k]` of a value (R51, R60). -/
def byteAt {w : Nat} (x : BitVec w) (k : Nat) : Byte :=
  x.extractLsb' (8 * k) 8

/-- The `n` low bytes of a value, least significant first (R51, R52). -/
def littleEndianBytes {w : Nat} (n : Nat) (x : BitVec w) : List Byte :=
  (List.range n).map (byteAt x)

/-- `load64(s)` (R50). -/
def load64 (bytes : List Byte) : Word :=
  BitVec.ofNat 64 (littleEndian bytes)

/-- `store64(w)` (R51). -/
def store64 (w : Word) : List Byte :=
  littleEndianBytes 8 w

/-- `Serialize(h)` (R58): the eight words of `h`, each by `store64`, in word order. -/
def serialize (h : Vector Word 8) : List Byte :=
  h.toList.flatMap store64

/-- `zeros(n)` (R12). -/
def zeros (n : Nat) : List Byte :=
  List.replicate n 0

end Sys2Proof.Machine
end

