-- ==== Sys2Proof/Config.lean ====
section
/-! DEFINITION. The fixed sizes of the hardware (spec/00_scope.md R8: "fixed for this hardware; none is a model
parameter"). R9: "The spec leaves no model parameter open", so this file holds no free value. The buffer size 256,
the block size 128 and the widths of the registers stand in the types and pseudocode themselves, as in the spec. -/

namespace Sys2Proof.Config

/-- OUTBYTES, the longest digest (R8). -/
@[simp] abbrev outBytes : Nat := 64

/-- KEYBYTES, the longest key (R8). -/
@[simp] abbrev keyBytes : Nat := 64

/-- The largest value of the 8-bit KEYLEN field (R73, R77: "0..255 as encoded"). -/
@[simp] abbrev maxKeyField : Nat := 255

/-- The largest value of UPDATE's 24-bit LEN field (R8, R75). -/
@[simp] abbrev maxUpdateBytes : Nat := 16777215

/-- The size of the observation window (R60). -/
@[simp] abbrev windowBytes : Nat := 128

end Sys2Proof.Config
end

