-- ==== Sys2Proof/Syntax.lean ====
section
/-! DEFINITION. Transactions (spec/00_scope.md R6, spec/30_encoding.md R70) and the command set: one constructor per
row of spec/opcode_table.json. The operands are those of spec/41_commands.md R140, with the payload as an operand. -/

namespace Sys2Proof

/-- A transaction: a 32-bit command word and a payload byte string (R6, R70). -/
structure Transaction where
  cw : CommandWord
  payload : List Byte
deriving DecidableEq, Repr

/-- The commands of R71, with the operands of R140.
KEYLEN of INIT_KEYED is the length of the key and LEN of UPDATE the length of the data (R79). -/
inductive Instr where
  /-- INIT_PLAIN OUTLEN (R72, R147). -/
  | initPlain (outlen : Byte)
  /-- INIT_KEYED OUTLEN, key (R73, R149). -/
  | initKeyed (outlen : Byte) (key : List Byte)
  /-- INIT_PARAM LAST_NODE, the 64-byte parameter block (R74, R151). -/
  | initParam (lastNode : Bool) (param : Vector Byte 64)
  /-- UPDATE data (R75, R160). -/
  | update (data : List Byte)
  /-- FINAL OUTLEN (R76, R163). -/
  | final (outlen : Byte)
deriving DecidableEq, Repr

end Sys2Proof
end

