-- ==== Sys2Proof/WellFormed.lean ====
section
/-! DEFINITION. Which terms of `Instr` a transaction can carry (spec/30_encoding.md R73, R75, R77): a payload length
that its field of the command word can hold. Values a field holds but a command does not accept (OUTLEN 0, KEYLEN
65..255) are well formed: R77 has them "decoded as they stand". -/

namespace Sys2Proof

/-- The payload length fits its field: KEYLEN is 8 bits (R73), LEN is 24 bits (R75). The 64 bytes of a parameter block
(R74) stand in its type. -/
def Instr.wellFormed : Instr → Bool
  | .initPlain _ => true
  | .initKeyed _ key => decide (key.length ≤ Config.maxKeyField)
  | .initParam _ _ => true
  | .update data => decide (data.length ≤ Config.maxUpdateBytes)
  | .final _ => true

end Sys2Proof
end

