-- ==== Sys2Proof/Decode.lean ====
section
/-! DEFINITION. Decoding and encoding of transactions (spec/30_encoding.md sections 1, 2, 5). `decode` follows the
pseudocode of R79; `encode` follows the formats of R72 to R76. Decoding is total: every command word with every payload
gives a command or `none` (Illegal, R78). -/

namespace Sys2Proof

/-- `OPC = cw[3:0]` (R71). -/
def opcodeField (cw : CommandWord) : Nat :=
  (cw.extractLsb' 0 4).toNat

/-- `OUTLEN`, `cw[15:8]` (R77). -/
def outlenField (cw : CommandWord) : Byte :=
  cw.extractLsb' 8 8

/-- `KEYLEN`, `cw[23:16]` (R77). -/
def keylenField (cw : CommandWord) : Byte :=
  cw.extractLsb' 16 8

/-- `LEN`, `cw[31:8]` (R77). -/
def lenField (cw : CommandWord) : BitVec 24 :=
  cw.extractLsb' 8 24

/-- `LAST_NODE`, `cw[4]` (R77). -/
def lastNodeField (cw : CommandWord) : Bool :=
  cw.getLsbD 4

/-- `PLEN(cw)` by the opcode alone (R71); none for a reserved opcode. -/
def payloadLength (cw : CommandWord) : Option Nat :=
  match opcodeField cw with
  | 1 => some 0
  | 2 => some (keylenField cw).toNat
  | 3 => some 64
  | 4 => some (lenField cw).toNat
  | 5 => some 0
  | _ => none

/-- The parameter block a payload of 64 bytes is. -/
def paramOfPayload (payload : List Byte) (len : payload.length = 64) : Vector Byte 64 :=
  ⟨payload.toArray, by simpa using len⟩

/-- `Decode(cw, payload)` (R79), `none` standing for Illegal. -/
def decode (cw : CommandWord) (payload : List Byte) : Option Instr :=
  match opcodeField cw with
  | 1 =>
    if cw.extractLsb' 4 4 ≠ 0 ∨ cw.extractLsb' 16 16 ≠ 0 then none
    else if payload.length = 0 then some (.initPlain (outlenField cw)) else none
  | 2 =>
    if cw.extractLsb' 4 4 ≠ 0 ∨ cw.extractLsb' 24 8 ≠ 0 then none
    else if payload.length = (keylenField cw).toNat then some (.initKeyed (outlenField cw) payload) else none
  | 3 =>
    if cw.extractLsb' 5 27 ≠ 0 then none
    else if len : payload.length = 64 then some (.initParam (lastNodeField cw) (paramOfPayload payload len)) else none
  | 4 =>
    if cw.extractLsb' 4 4 ≠ 0 then none
    else if payload.length = (lenField cw).toNat then some (.update payload) else none
  | 5 =>
    if cw.extractLsb' 4 4 ≠ 0 ∨ cw.extractLsb' 16 16 ≠ 0 then none
    else if payload.length = 0 then some (.final (outlenField cw)) else none
  | _ => none

/-- The command word of a command (R72 to R76). -/
def encodeWord : Instr → CommandWord
  | .initPlain outlen => 0x00000001#32 ||| (outlen.setWidth 32 <<< 8)
  | .initKeyed outlen key => 0x00000002#32 ||| (outlen.setWidth 32 <<< 8) ||| (BitVec.ofNat 32 key.length <<< 16)
  | .initParam lastNode _ => 0x00000003#32 ||| (if lastNode then 0x00000010#32 else 0#32)
  | .update data => 0x00000004#32 ||| (BitVec.ofNat 32 data.length <<< 8)
  | .final outlen => 0x00000005#32 ||| (outlen.setWidth 32 <<< 8)

/-- The payload of a command (R71). -/
def encodePayload : Instr → List Byte
  | .initPlain _ => []
  | .initKeyed _ key => key
  | .initParam _ param => param.toList
  | .update data => data
  | .final _ => []

/-- The transaction of a command. -/
def encode (i : Instr) : Transaction :=
  { cw := encodeWord i, payload := encodePayload i }

/-- A transaction carried as bytes: the command word least significant byte first (R52), then the payload (R88). -/
def Transaction.bytes (t : Transaction) : List Byte :=
  Machine.littleEndianBytes 4 t.cw ++ t.payload

/-- One command read from the front of a byte stream, with the rest of the stream (R88: "a receiver knows where the
next transaction starts after reading the command word"). A stream that is cut short or whose command does not decode
is refused. -/
def decodeBytes (stream : List Byte) : Option (Instr × List Byte) :=
  if stream.length < 4 then none
  else
    let cw := BitVec.ofNat 32 (Machine.littleEndian (stream.take 4))
    match payloadLength cw with
    | none => none
    | some n =>
      if (stream.drop 4).length < n then none
      else (decode cw ((stream.drop 4).take n)).map fun i => (i, (stream.drop 4).drop n)

/-- The transaction whose bits are `w`, bit 0 the least significant bit of the command word, of which the table gives
`nbits`: the payload's bytes count on from bit 32, and every bit from `nbits` up is 0 (log 15). -/
def tableTransaction (nbits w : Nat) : Transaction :=
  let bits := w % 2 ^ nbits
  let cw := BitVec.ofNat 32 bits
  { cw := cw
    payload := (List.range ((payloadLength cw).getD 0)).map fun k => BitVec.ofNat 8 (bits >>> (32 + 8 * k)) }

/-- What the decoder reads from the instruction whose bits are `w` (log 15). -/
def decodeTableWord (nbits w : Nat) : Option Instr :=
  decode (tableTransaction nbits w).cw (tableTransaction nbits w).payload

end Sys2Proof
end

