-- ==== Sys2Proof/Machine/State.lean ====
section
/-! DEFINITION. The state of one engine instance (spec/10_state.md), as plain data, and its value after reset
(spec/70_reset_and_hazards.md R220). -/

namespace Sys2Proof.Machine

/-- The phase (R27). Encoding 3 is never held, so it has no constructor. -/
inductive Phase where
  | idle
  | ready
  | finalized
deriving DecidableEq, Repr

/-- The error codes (spec/30_encoding.md R86). Codes 6 to 15 are never produced, so they have no constructor. -/
inductive ErrorCode where
  | ok
  | invalidLength
  | alreadyFinalized
  | invalidParameterBlock
  | notInitialized
  | illegalCommand
deriving DecidableEq, Repr

/-- A byte memory: (address, byte) pairs in the canonical form `Memory.wf` states. The engine's one byte-addressed
storage is `buf[0..256)` (R23, spec/20_memory.md R59). -/
abbrev Memory := List Host.Cell

/-- What an unlisted address reads as: 0, the reset contents of the buffer (R220). -/
abbrev Memory.unlisted : Byte := 0

/-- The canonical form: addresses strictly rising and below 256 (R53, R59), no entry equal to what an unlisted address
reads as. -/
abbrev Memory.wf (m : Memory) : Prop :=
  m.Pairwise (fun a b => a.1 < b.1) ∧ ∀ c ∈ m, c.1 < 256 ∧ c.2 ≠ Memory.unlisted

/-- The widths an observation read may have (spec/20_memory.md R61: "n in 1, 2, 4, 8"). -/
inductive ReadSize where
  | one
  | two
  | four
  | eight
deriving DecidableEq, Repr

/-- What the host can do to the engine, in the order it does it (log 1). -/
inductive HostEvent where
  /-- A command transaction (spec/00_scope.md R6). -/
  | command (t : Transaction)
  /-- A read of the observation window (spec/20_memory.md R61). -/
  | read (offset : Nat) (size : ReadSize)
  /-- A write to the observation window, which is ignored (R61). -/
  | write (offset : Nat) (data : List Byte)
  /-- The reset input, between two commands (R220). -/
  | reset
  /-- The reset input while this transaction is being executed (R221). -/
  | resetDuring (t : Transaction)
deriving DecidableEq, Repr

/-- What the engine returns to the host. -/
inductive HostOutput where
  /-- The response of a command: STATUS, and the digest bytes of a successful FINAL (spec/30_encoding.md R87). -/
  | response (status : BitVec 32) (digestBytes : List Byte)
  /-- The value of an observation read (spec/20_memory.md R61). -/
  | readValue (value : BitVec 64)
deriving DecidableEq, Repr

/-- The state of one engine (spec/10_state.md section 1), then the model's own two fields for the host interface. -/
@[ext]
structure State where
  /-- Chaining value `h[0..8)` (R20). -/
  h : Vector Word 8
  /-- `t[0]`, the low word of the byte counter (R21). -/
  t0 : Word
  /-- `t[1]`, the high word of the byte counter (R21). -/
  t1 : Word
  /-- `f[0]` (R22). -/
  f0 : Word
  /-- `f[1]` (R22). -/
  f1 : Word
  /-- The input buffer `buf[0..256)` (R23). -/
  buf : Memory
  /-- The number of pending bytes, 0..256 (R24). -/
  buflen : Nat
  /-- `last_node` (R25). -/
  lastNode : Bool
  /-- `digest_length` (R26). -/
  digestLength : Byte
  /-- `phase` (R27). -/
  phase : Phase
  /-- `err`, the code of the most recent command (R28). -/
  err : ErrorCode
  /-- `DIGEST[0..64)` (R29). -/
  digest : Vector Byte 64
  /-- `DIGEST_LEN`, 0..64 (R29). -/
  digestLen : Nat
  /-- The compression counter (R30). -/
  ncomp : Word
  /-- The key scratch `KSCR[0..128)` (R39). -/
  kscr : Vector Byte 128
  /-- The model's own: what the host has issued and the engine has not yet taken, oldest first (log 1). -/
  inbox : List HostEvent
  /-- The model's own: what the event taken last returned to the host (log 2). -/
  output : Option HostOutput
deriving DecidableEq, Repr

/-- The faults of the machine: none. R7 (spec/00_scope.md): the step "has no refusal and no stuck outcome at the
transaction level"; every error is a NEXT state (spec/60_exceptions.md R196). Nothing raises one, which is safe: a
claim "no step faults" is a claim about the step, and R7 states it (log 19). -/
inductive Fault
deriving DecidableEq, Repr

/-- The refusals of the machine. -/
inductive Refusal where
  /-- Raised only by an arm of `exec` whose instruction has no meaning yet, by the name of its row in
  spec/opcode_table.json; safe, since the run stops. No arm of this model raises it. -/
  | notModelled (mnemonic : String)
deriving DecidableEq, Repr

/-- The state right after reset (R220), with nothing issued and nothing returned (log 1, log 2). -/
def State.reset : State where
  h := Vector.replicate 8 0
  t0 := 0
  t1 := 0
  f0 := 0
  f1 := 0
  buf := []
  buflen := 0
  lastNode := false
  digestLength := 0
  phase := .idle
  err := .ok
  digest := Vector.replicate 64 0
  digestLen := 0
  ncomp := 0
  kscr := Vector.replicate 128 0
  inbox := []
  output := none

end Sys2Proof.Machine
end

