-- ==== Sys2Proof/Machine/Flags.lean ====
section
/-! DEFINITION. Status and flag computations: the encodings of `phase` and `err`, STATUS and CONFIG
(spec/10_state.md R27, R31, R34, spec/30_encoding.md R86), the carry of the byte counter (spec/20_memory.md R57) and
the finalization flags (spec/41_commands.md R164). -/

namespace Sys2Proof.Machine

/-- The 2-bit encoding of the phase (R27). -/
def Phase.code : Phase → BitVec 2
  | .idle => 0
  | .ready => 1
  | .finalized => 2

/-- The 4-bit code of an error (R86). -/
def ErrorCode.code : ErrorCode → BitVec 4
  | .ok => 0
  | .invalidLength => 1
  | .alreadyFinalized => 2
  | .invalidParameterBlock => 3
  | .notInitialized => 4
  | .illegalCommand => 5

/-- The value of STATUS for a phase and an error code (R31): ERR in [3:0], PHASE in [5:4], [31:6] read 0. -/
def statusOf (p : Phase) (e : ErrorCode) : BitVec 32 :=
  (0#26 ++ p.code) ++ e.code

/-- STATUS (R31). -/
def statusWord (s : State) : BitVec 32 :=
  statusOf s.phase s.err

/-- CONFIG (R34): `digest_length` in [7:0], `last_node` in [8], [31:9] read 0. -/
def configWord (s : State) : BitVec 32 :=
  (0#23 ++ BitVec.ofBool s.lastNode) ++ s.digestLength

/-- BUFLEN (R33): `buflen` in [8:0], [31:9] read 0. -/
def buflenWord (s : State) : BitVec 32 :=
  0#23 ++ BitVec.ofNat 9 s.buflen

/-- DIGEST_LEN (R35): in [6:0], [31:7] read 0. -/
def digestLenWord (s : State) : BitVec 32 :=
  0#25 ++ BitVec.ofNat 7 s.digestLen

/-- `IncrementCounter(k)` (R57): the carry out of the low word is added to the high word, the carry out of the high
word is dropped (D12). -/
def incrementCounter (k : Nat) (s : State) : State :=
  let low := s.t0 + BitVec.ofNat 64 k
  { s with
    t0 := low
    t1 := if low.toNat < k then s.t1 + 1 else s.t1 }

/-- The flags of the final block (R164): `f[0]` all-ones, and `f[1]` all-ones for a last node. -/
def setFinalFlags (s : State) : State :=
  { s with
    f0 := mask64
    f1 := if s.lastNode then mask64 else s.f1 }

end Sys2Proof.Machine
end

