-- ==== Sys2Proof/Machine/Compression.lean ====
section
/-! DEFINITION. The compression function (spec/40_compression.md): the constants IV and SIGMA (R103, R104), the
positions of the eight G applications (R105), the mixing primitive G (R107), one round (R110) and the twelve rounds of
`Compress` (R115). Every index is bounded by its type. -/

namespace Sys2Proof.Machine

/-- The initialization constants (R103). -/
def iv : Vector Word 8 :=
  #v[0x6a09e667f3bcc908#64, 0xbb67ae8584caa73b#64, 0x3c6ef372fe94f82b#64, 0xa54ff53a5f1d36f1#64,
     0x510e527fade682d1#64, 0x9b05688c2b3e6c1f#64, 0x1f83d9abfb41bd6b#64, 0x5be0cd19137e2179#64]

/-- The message schedule (R104): row `r` is the order in which round `r` takes the message words. -/
def sigma : Vector (Vector (Fin 16) 16) 12 :=
  #v[#v[ 0,  1,  2,  3,  4,  5,  6,  7,  8,  9, 10, 11, 12, 13, 14, 15],
     #v[14, 10,  4,  8,  9, 15, 13,  6,  1, 12,  0,  2, 11,  7,  5,  3],
     #v[11,  8, 12,  0,  5,  2, 15, 13, 10, 14,  3,  6,  7,  1,  9,  4],
     #v[ 7,  9,  3,  1, 13, 12, 11, 14,  2,  6,  5, 10,  4,  0, 15,  8],
     #v[ 9,  0,  5,  7,  2,  4, 10, 15, 14,  1, 11, 12,  6,  8,  3, 13],
     #v[ 2, 12,  6, 10,  0, 11,  8,  3,  4, 13,  7,  5, 15, 14,  1,  9],
     #v[12,  5,  1, 15, 14, 13,  4, 10,  0,  7,  6,  3,  9,  2,  8, 11],
     #v[13, 11,  7, 14, 12,  1,  3,  9,  5,  0, 15,  4,  8,  6,  2, 10],
     #v[ 6, 15, 14,  9, 11,  3,  0,  8, 12,  2, 13,  7,  1,  4, 10,  5],
     #v[10,  2,  8,  4,  7,  6,  1,  5, 15, 11,  9, 14,  3, 12, 13,  0],
     #v[ 0,  1,  2,  3,  4,  5,  6,  7,  8,  9, 10, 11, 12, 13, 14, 15],
     #v[14, 10,  4,  8,  9, 15, 13,  6,  1, 12,  0,  2, 11,  7,  5,  3]]

/-- The four positions one G application works on. -/
structure GPositions where
  a : Fin 16
  b : Fin 16
  c : Fin 16
  d : Fin 16
deriving DecidableEq, Repr

/-- The positions of the eight applications (R105): 0 to 3 column, 4 to 7 diagonal. -/
def gPositions : Vector GPositions 8 :=
  #v[⟨0, 4,  8, 12⟩, ⟨1, 5,  9, 13⟩, ⟨2, 6, 10, 14⟩, ⟨3, 7, 11, 15⟩,
     ⟨0, 5, 10, 15⟩, ⟨1, 6, 11, 12⟩, ⟨2, 7,  8, 13⟩, ⟨3, 4,  9, 14⟩]

/-- `rotr64(x, n)` for `0 < n < 64` (spec/00_scope.md R11). -/
def rotr64 (x : Word) (n : Nat) : Word :=
  (x >>> n) ||| (x <<< (64 - n))

/-- The four state words of a G application. -/
structure Quad where
  a : Word
  b : Word
  c : Word
  d : Word
deriving DecidableEq, Repr

/-- The mixing primitive G (R107), with the rotation amounts 32, 24, 16 and 63 (R108). -/
def mixG (q : Quad) (x y : Word) : Quad :=
  let a1 := q.a + q.b + x
  let d1 := rotr64 (q.d ^^^ a1) 32
  let c1 := q.c + d1
  let b1 := rotr64 (q.b ^^^ c1) 24
  let a2 := a1 + b1 + y
  let d2 := rotr64 (d1 ^^^ a2) 16
  let c2 := c1 + d2
  let b2 := rotr64 (b1 ^^^ c2) 63
  ⟨a2, b2, c2, d2⟩

/-- The four words of the working vector at the given positions. -/
def quadAt (v : Vector Word 16) (p : GPositions) : Quad :=
  ⟨v[p.a], v[p.b], v[p.c], v[p.d]⟩

/-- The working vector with the four words at the given positions replaced. -/
def setQuad (v : Vector Word 16) (p : GPositions) (q : Quad) : Vector Word 16 :=
  (((v.set p.a q.a).set p.b q.b).set p.c q.c).set p.d q.d

/-- The message word SIGMA names in row `r`, column `k` (R106). -/
def messageWord (m : Vector Word 16) (r : Fin 12) (k : Fin 16) : Word :=
  m[sigma[r][k]]

/-- G application `i` of round `r` (R106, R110). -/
def applyG (m : Vector Word 16) (r : Fin 12) (v : Vector Word 16) (i : Fin 8) : Vector Word 16 :=
  setQuad v gPositions[i]
    (mixG (quadAt v gPositions[i]) (messageWord m r ⟨2 * i.val, by omega⟩) (messageWord m r ⟨2 * i.val + 1, by omega⟩))

/-- `Round(v, m, r)` (R110): the eight applications in order. -/
def round (m : Vector Word 16) (v : Vector Word 16) (r : Fin 12) : Vector Word 16 :=
  (List.finRange 8).foldl (applyG m r) v

/-- The twelve rounds, `r = 0` to `11` (R115, R120). -/
def rounds (m : Vector Word 16) (v : Vector Word 16) : Vector Word 16 :=
  (List.finRange 12).foldl (round m) v

/-- The initial working vector (R116). -/
def workingVector (h : Vector Word 8) (t0 t1 f0 f1 : Word) : Vector Word 16 :=
  #v[h[0], h[1], h[2], h[3], h[4], h[5], h[6], h[7],
     iv[0], iv[1], iv[2], iv[3], iv[4] ^^^ t0, iv[5] ^^^ t1, iv[6] ^^^ f0, iv[7] ^^^ f1]

/-- The message words of a 128-byte block (spec/20_memory.md R54, R117). -/
def decodeBlock (block : List Byte) : Vector Word 16 :=
  Vector.ofFn fun i => load64 ((block.drop (8 * i.val)).take 8)

/-- The fold-back `h[i] ^ v[i] ^ v[i+8]` (R118). -/
def foldBack (h : Vector Word 8) (v : Vector Word 16) : Vector Word 8 :=
  Vector.ofFn fun i => h[i] ^^^ v[i.val] ^^^ v[i.val + 8]

/-- The chaining value after a compression, as a function of what R121 says it depends on, `t` being the counter after
its increment. -/
def compressWords (h : Vector Word 8) (t0 t1 f0 f1 : Word) (block : List Byte) : Vector Word 8 :=
  foldBack h (rounds (decodeBlock block) (workingVector h t0 t1 f0 f1))

end Sys2Proof.Machine
end

