-- ==== Sys2Proof/Machine/Operands.lean ====
section
/-! DEFINITION. Operand forms: the legal lengths (spec/60_exceptions.md R190), the parameter block and its fields
(spec/30_encoding.md R80 to R82) and the key block (R83). -/

namespace Sys2Proof.Machine

/-- A digest length in 1..64 (R190, R80). -/
def legalOutlen (n : Nat) : Bool :=
  decide (1 ≤ n ∧ n ≤ Config.outBytes)

/-- A key length in 0..64 (R190, R80). -/
def legalKeylen (n : Nat) : Bool :=
  decide (n ≤ Config.keyBytes)

/-- The fields of a parameter block, in the order and with the sizes of R80. -/
structure ParamFields where
  digestLength : Byte
  keyLength : Byte
  fanout : Byte
  depth : Byte
  leafLength : BitVec 32
  nodeOffset : BitVec 64
  nodeDepth : Byte
  innerLength : Byte
  reserved : Vector Byte 14
  salt : Vector Byte 16
  personal : Vector Byte 16
deriving DecidableEq, Repr

/-- A salt or personalization of at most 16 bytes, "zero-padded if shorter" (R80); bytes past the sixteenth are
dropped (log 13). -/
def padField16 (bytes : List Byte) : Vector Byte 16 :=
  Vector.ofFn fun i => bytes.getD i 0

/-- The 64 bytes of a parameter block: the fields back to back, multi-byte fields little-endian (R80). -/
def ParamFields.byteList (p : ParamFields) : List Byte :=
  [p.digestLength, p.keyLength, p.fanout, p.depth] ++ littleEndianBytes 4 p.leafLength ++
    littleEndianBytes 8 p.nodeOffset ++ [p.nodeDepth, p.innerLength] ++ p.reserved.toList ++ p.salt.toList ++
    p.personal.toList

/-- The parameter block of the given fields (R80). -/
def ParamFields.block (p : ParamFields) : Vector Byte 64 :=
  Vector.ofFn fun i => p.byteList.getD i 0

/-- `param_word[i] = load64(P[8i..8i+8))` (R81). -/
def paramWord (param : Vector Byte 64) (i : Nat) : Word :=
  load64 ((param.toList.drop (8 * i)).take 8)

/-- `P[0]`, the digest length a block asks for (R80). -/
def paramDigestLength (param : Vector Byte 64) : Byte :=
  param[0]

/-- `P[1]`, the key length a block claims (R80). -/
def paramKeyLength (param : Vector Byte 64) : Byte :=
  param[1]

/-- `P[18..32) = zeros(14)` (R152). -/
def reservedClear (param : Vector Byte 64) : Bool :=
  ((param.toList.drop 18).take 14).all (· == 0)

/-- `PlainParam(outlen, keylen)` (R82): fanout and depth 1, every other byte 0. -/
def plainParam (outlen : Byte) (keylen : Nat) : Vector Byte 64 :=
  Vector.ofFn fun i =>
    if i.val = 0 then outlen
    else if i.val = 1 then BitVec.ofNat 8 keylen
    else if i.val = 2 then 1
    else if i.val = 3 then 1
    else 0

/-- The key block `K ++ zeros(128 - keylen)` (R83). -/
def keyBlock (key : List Byte) : Vector Byte 128 :=
  Vector.ofFn fun i => key.getD i 0

end Sys2Proof.Machine
end

