-- ==== Sys2Proof/Machine/Ops.lean ====
section
/-! DEFINITION. The named operations over the buffer and the state: byte access and BufRead, BufWrite
(spec/20_memory.md R53), Compress (spec/40_compression.md R115), the two ways a command ends, `raise E`
(spec/60_exceptions.md R196) and `return ok` (spec/00_scope.md R13), InitFromParam (spec/41_commands.md R145), Absorb
(R155) and the parts of FINAL (R163). -/

namespace Sys2Proof.Machine

/-! ### The buffer -/

/-- One byte of a memory. -/
def readByte : Memory → Nat → Byte
  | [], _ => Memory.unlisted
  | c :: rest, a => if c.1 = a then c.2 else readByte rest a

/-- A cell in front of a memory whose addresses all lie above it, left out when it holds what an unlisted address
reads as. -/
def consCell (a : Nat) (b : Byte) (rest : Memory) : Memory :=
  if b = Memory.unlisted then rest else (a, b) :: rest

/-- A memory with one byte replaced, in canonical form. -/
def writeByte : Memory → Nat → Byte → Memory
  | [], a, b => consCell a b []
  | c :: rest, a, b =>
    if a < c.1 then consCell a b (c :: rest)
    else if a = c.1 then consCell a b rest
    else c :: writeByte rest a b

/-- `BufRead(j, n)` (R53). -/
def bufRead (m : Memory) (j n : Nat) : List Byte :=
  (List.range n).map fun k => readByte m (j + k)

/-- `BufWrite(j, s)` (R53). -/
def bufWrite : Memory → Nat → List Byte → Memory
  | m, _, [] => m
  | m, j, b :: rest => bufWrite (writeByte m j b) (j + 1) rest

/-! ### How a command ends -/

/-- `raise E` (R196): the one operation that every error of every command takes. Only `err` and KSCR are written, and
the response is STATUS with no digest byte. -/
def raise (e : ErrorCode) (s : State) : State :=
  let s := { s with kscr := Vector.replicate 128 0, err := e }
  { s with output := some (.response (statusWord s) []) }

/-- `return ok` (spec/00_scope.md R13): `err <- 0`, and the response of spec/30_encoding.md R87. There is no return
from an error beside it (spec/60_exceptions.md R198). -/
def returnOk (digestBytes : List Byte) (s : State) : State :=
  let s := { s with err := .ok }
  { s with output := some (.response (statusWord s) digestBytes) }

/-! ### Compress -/

/-- `Compress(inc)` (R115): the counter first, then the block `buf[0..128)`, then NCOMP. -/
def compress (inc : Nat) (s : State) : State :=
  let s := incrementCounter inc s
  { s with
    h := compressWords s.h s.t0 s.t1 s.f0 s.f1 (bufRead s.buf 0 128)
    ncomp := s.ncomp + 1 }

/-! ### Initialisation -/

/-- `InitFromParam(P, ln)` (R145). -/
def initFromParam (param : Vector Byte 64) (lastNode : Bool) (s : State) : State :=
  { s with
    h := Vector.ofFn fun i => iv[i] ^^^ paramWord param i
    t0 := 0
    t1 := 0
    f0 := 0
    f1 := 0
    buf := []
    buflen := 0
    lastNode := lastNode
    digestLength := paramDigestLength param
    phase := .ready
    digest := Vector.replicate 64 0
    digestLen := 0
    ncomp := 0 }

/-! ### Absorb -/

/-- The fill of R155: `BufWrite(buflen, chunk); buflen <- buflen + len(chunk)`. -/
def fill (chunk : List Byte) (s : State) : State :=
  { s with
    buf := bufWrite s.buf s.buflen chunk
    buflen := s.buflen + chunk.length }

/-- The shift of R155: the upper half of the buffer moves down and leaves zeros (D16). -/
def shiftBlock (s : State) : State :=
  { s with
    buf := bufWrite s.buf 0 (bufRead s.buf 128 128 ++ zeros 128)
    buflen := s.buflen - 128 }

/-- The inner loop of R155: interior blocks are compressed while more than one block is held. The first argument bounds
the number of turns; `buflen` turns are always enough (log 7). -/
def drain : Nat → State → State
  | 0, s => s
  | n + 1, s => if s.buflen > 128 then drain n (shiftBlock (compress 128 s)) else s

/-- The outer loop of R155. The first argument bounds the number of turns; one more than the length of the data is
always enough (log 7). -/
def absorbLoop : Nat → List Byte → State → State
  | 0, _, s => s
  | n + 1, data, s =>
    if data = [] then s
    else
      let k := min (256 - s.buflen) data.length
      let s := fill (data.take k) s
      absorbLoop n (data.drop k) (drain s.buflen s)

/-- `Absorb(data)` (R155). -/
def absorb (data : List Byte) (s : State) : State :=
  absorbLoop (data.length + 1) data s

/-- Absorbing one byte, the byte-serial form of R156. -/
def absorbByte (s : State) (b : Byte) : State :=
  let s := if s.buflen = 128 then shiftBlock (compress 128 s) else s
  fill [b] s

/-! ### The parts of FINAL -/

/-- The padding of FINAL (R165): `BufWrite(buflen, zeros(256 - buflen))`. -/
def padBuffer (s : State) : State :=
  { s with buf := bufWrite s.buf s.buflen (zeros (256 - s.buflen)) }

/-- The digest register of a digest of `n` bytes (R166): the first `n` bytes of Serialize(h), then zeros. -/
def digestRegister (h : Vector Word 8) (n : Nat) : Vector Byte 64 :=
  Vector.ofFn fun j => if j.val < n then (serialize h).getD j 0 else 0

/-- The digest output of FINAL (R163, R166). -/
def emitDigest (n : Nat) (s : State) : State :=
  { s with
    digest := digestRegister s.h n
    digestLen := n }

/-- The end of FINAL (R163, D16): the whole buffer zeroed, phase Finalized. -/
def closeComputation (s : State) : State :=
  { s with
    buf := []
    buflen := 0
    phase := .finalized }

/-! ### Reset -/

/-- The effect of the reset input (R220, R221): every element of the engine at its reset value, whatever it held; what
the host has issued after the reset still stands (log 8). -/
def resetEngine (s : State) : State :=
  { State.reset with inbox := s.inbox }

end Sys2Proof.Machine
end

