-- ==== Sys2Proof/Machine/Init.lean ====
section
/-! DEFINITION. The meanings of INIT_PLAIN, INIT_KEYED and INIT_PARAM (spec/41_commands.md sections 3 to 5). -/

namespace Sys2Proof.Machine

/-- INIT_PLAIN (R147). -/
def execInitPlain (outlen : Byte) (s : State) : Host.Outcome State Fault Refusal :=
  if legalOutlen outlen.toNat then .next (returnOk [] (initFromParam (plainParam outlen 0) false s))
  else .next (raise .invalidLength s)

/-- The key path of INIT_KEYED (R149): the key block into KSCR, absorbed from there, KSCR wiped (R232). -/
def absorbKey (key : List Byte) (s : State) : State :=
  let s := { s with kscr := keyBlock key }
  let s := absorb s.kscr.toList s
  { s with kscr := Vector.replicate 128 0 }

/-- INIT_KEYED (R149). -/
def execInitKeyed (outlen : Byte) (key : List Byte) (s : State) : Host.Outcome State Fault Refusal :=
  if legalOutlen outlen.toNat && legalKeylen key.length then
    let s := initFromParam (plainParam outlen key.length) false s
    .next (returnOk [] (if key.length > 0 then absorbKey key s else s))
  else .next (raise .invalidLength s)

/-- INIT_PARAM (R151, R152). -/
def execInitParam (lastNode : Bool) (param : Vector Byte 64) (s : State) : Host.Outcome State Fault Refusal :=
  if !(legalOutlen (paramDigestLength param).toNat && legalKeylen (paramKeyLength param).toNat) then
    .next (raise .invalidLength s)
  else if !(reservedClear param) then .next (raise .invalidParameterBlock s)
  else .next (returnOk [] (initFromParam param lastNode s))

end Sys2Proof.Machine
end

