-- ==== Sys2Proof/Machine/Stream.lean ====
section
/-! DEFINITION. The meanings of UPDATE and FINAL (spec/41_commands.md sections 7 and 8). -/

namespace Sys2Proof.Machine

/-- UPDATE (R160). -/
def execUpdate (data : List Byte) (s : State) : Host.Outcome State Fault Refusal :=
  match s.phase with
  | .idle => .next (raise .notInitialized s)
  | .finalized => .next (raise .alreadyFinalized s)
  | .ready => .next (returnOk [] (absorb data s))

/-- What a FINAL that passes its checks does before `return ok` (R163 to R166). -/
def finishDigest (outlen : Nat) (s : State) : State :=
  let s := padBuffer (setFinalFlags s)
  closeComputation (emitDigest outlen (compress s.buflen s))

/-- FINAL (R163). The response carries `DIGEST[0..OUTLEN)`. -/
def execFinal (outlen : Byte) (s : State) : Host.Outcome State Fault Refusal :=
  match s.phase with
  | .idle => .next (raise .notInitialized s)
  | .finalized => .next (raise .alreadyFinalized s)
  | .ready =>
    if outlen ≠ s.digestLength then .next (raise .invalidLength s)
    else
      let s := finishDigest outlen.toNat s
      .next (returnOk (s.digest.toList.take outlen.toNat) s)

end Sys2Proof.Machine
end

