-- ==== Sys2Proof/Machine/Dispatch.lean ====
section
/-! DEFINITION. The dispatch of spec/41_commands.md R140: one arm per command. -/

namespace Sys2Proof.Machine

def exec (i : Instr) (s : State) : Host.Outcome State Fault Refusal :=
  match i with
  | .initPlain outlen => Sys2Proof.Machine.execInitPlain outlen s
  | .initKeyed outlen key => Sys2Proof.Machine.execInitKeyed outlen key s
  | .initParam lastNode param => Sys2Proof.Machine.execInitParam lastNode param s
  | .update data => Sys2Proof.Machine.execUpdate data s
  | .final outlen => Sys2Proof.Machine.execFinal outlen s

end Sys2Proof.Machine
end

