-- ==== Sys2Proof/Machine/Observe.lean ====
section
/-! DEFINITION. The observation window (spec/20_memory.md R60, R61, spec/41_commands.md R170; log 17). Observing is not a
command: it is a function of the state and writes nothing. -/

namespace Sys2Proof.Machine

/-- The byte at an offset of the window (R60). Reserved offsets, and offsets beyond the window, read 0 (R61). -/
def windowByte (s : State) (o : Nat) : Byte :=
  if o < 0x04 then byteAt (statusWord s) o
  else if o < 0x08 then byteAt (configWord s) (o - 0x04)
  else if o < 0x10 then byteAt s.t0 (o - 0x08)
  else if o < 0x18 then byteAt s.t1 (o - 0x10)
  else if o < 0x1C then byteAt (buflenWord s) (o - 0x18)
  else if o < 0x20 then byteAt (digestLenWord s) (o - 0x1C)
  else if o < 0x28 then byteAt s.ncomp (o - 0x20)
  else if o < 0x40 then 0
  else s.digest.toList.getD (o - 0x40) 0

/-- The number of bytes a read takes (R61). -/
def ReadSize.bytes : ReadSize → Nat
  | .one => 1
  | .two => 2
  | .four => 4
  | .eight => 8

/-- `Observe(state, o, n)` (R61, R170): the `n` window bytes from `o` on, assembled little-endian. -/
def observe (s : State) (o n : Nat) : BitVec 64 :=
  BitVec.ofNat 64 (littleEndian ((List.range n).map fun k => windowByte s (o + k)))

end Sys2Proof.Machine
end

