-- ==== Sys2Proof/Machine/Step.lean ====
section
/-! DEFINITION. The step: the engine takes the oldest thing the host has issued (spec/00_scope.md R6, R7,
spec/20_memory.md R64) and carries it out whole. -/

namespace Sys2Proof.Machine

/-- `Execute(cw, payload)` (spec/41_commands.md R140). -/
def execute (t : Transaction) (s : State) : Host.Outcome State Fault Refusal :=
  match decode t.cw t.payload with
  | none => .next (raise .illegalCommand s)
  | some i => exec i s

/-- One thing the host does. A read returns a value and a write does nothing (R61); a reset cuts a command short with
no response (R221). -/
def handleEvent (e : HostEvent) (s : State) : Host.Outcome State Fault Refusal :=
  match e with
  | .command t => execute t s
  | .read offset size => .next { s with output := some (.readValue (observe s offset size.bytes)) }
  | .write _ _ => .next s
  | .reset => .next (resetEngine s)
  | .resetDuring _ => .next (resetEngine s)

/-- One step. With nothing issued the engine holds its state (spec/60_exceptions.md R206, log 3). -/
def step (s : State) : Host.Outcome State Fault Refusal :=
  match s.inbox with
  | [] => .next s
  | e :: rest => handleEvent e { s with inbox := rest, output := none }

/-- `s` with the instruction whose bits are `w` issued by the host as the next transaction (log 1, log 15). -/
def State.withFetchWord (s : State) (nbits w : Nat) : State :=
  { s with inbox := .command (tableTransaction nbits w) :: s.inbox }

end Sys2Proof.Machine
end

