-- ==== Sys2Proof/Machine/Assembler.lean ====
section
/-! DEFINITION. The assembler of spec/30_encoding.md R89: the written form of a command, its byte strings, and the
listing of a transaction. Text is a list of characters. What R89 leaves open about spaces is log 12. -/

namespace Sys2Proof.Machine

/-- A byte string as R89 writes it. -/
inductive ByteLiteral where
  /-- `hex:` followed by pairs of hex digits. -/
  | hex (bytes : List Byte)
  /-- An ASCII string in double quotes. -/
  | ascii (chars : List Char)
  /-- `range(a,b)`. -/
  | range (a b : Nat)
deriving DecidableEq, Repr

/-- The bytes a literal stands for; `range(a,b)` is `a, a+1, ..., b-1`, each modulo 256 (R89). -/
def ByteLiteral.bytes : ByteLiteral → List Byte
  | .hex bytes => bytes
  | .ascii chars => chars.map fun c => BitVec.ofNat 8 c.toNat
  | .range a b => (List.range (b - a)).map fun k => BitVec.ofNat 8 (a + k)

/-- A command as written (R89). -/
inductive AsmLine where
  | initPlain (outlen : Nat)
  | initKeyed (outlen : Nat) (key : ByteLiteral)
  | initParam (param : ByteLiteral) (lastNode : Bool)
  | update (data : ByteLiteral)
  | final (outlen : Nat)
deriving DecidableEq, Repr

/-- The command a line stands for: KEYLEN and LEN are the lengths of the strings, and INIT_PARAM "requires a 64-byte
string" (R89). A number or a string that its field cannot hold is refused. -/
def assemble : AsmLine → Option Instr
  | .initPlain n => if n < 256 then some (.initPlain (BitVec.ofNat 8 n)) else none
  | .initKeyed n key =>
    if n < 256 ∧ key.bytes.length ≤ Config.maxKeyField then some (.initKeyed (BitVec.ofNat 8 n) key.bytes) else none
  | .initParam param lastNode =>
    if len : param.bytes.length = 64 then some (.initParam lastNode (paramOfPayload param.bytes len)) else none
  | .update data => if data.bytes.length ≤ Config.maxUpdateBytes then some (.update data.bytes) else none
  | .final n => if n < 256 then some (.final (BitVec.ofNat 8 n)) else none

/-! ### Reading the text -/

/-- The value of a hex digit. -/
def digitValue (c : Char) : Option Nat :=
  if '0'.toNat ≤ c.toNat ∧ c.toNat ≤ '9'.toNat then some (c.toNat - '0'.toNat)
  else if 'a'.toNat ≤ c.toNat ∧ c.toNat ≤ 'f'.toNat then some (c.toNat - 'a'.toNat + 10)
  else if 'A'.toNat ≤ c.toNat ∧ c.toNat ≤ 'F'.toNat then some (c.toNat - 'A'.toNat + 10)
  else none

/-- Digits in a base, most significant first, behind the value read so far. -/
def parseDigits (base : Nat) : Nat → List Char → Option Nat
  | value, [] => some value
  | value, c :: rest =>
    match digitValue c with
    | none => none
    | some d => if d < base then parseDigits base (value * base + d) rest else none

/-- A decimal or `0x` number. -/
def parseNumber : List Char → Option Nat
  | [] => none
  | ['0', 'x'] => none
  | '0' :: 'x' :: digits => parseDigits 16 0 digits
  | digits => parseDigits 10 0 digits

/-- Pairs of hex digits. -/
def parseHexPairs : List Char → Option (List Byte)
  | [] => some []
  | [_] => none
  | a :: b :: rest =>
    match digitValue a, digitValue b, parseHexPairs rest with
    | some x, some y, some bytes => some (BitVec.ofNat 8 (16 * x + y) :: bytes)
    | _, _, _ => none

/-- Text without the spaces and tabs around it. -/
def trimSpaces (text : List Char) : List Char :=
  let isSpace := fun c => c == ' ' || c == '\t'
  ((text.dropWhile isSpace).reverse.dropWhile isSpace).reverse

/-- Text before and after the first comma. -/
def splitComma (text : List Char) : Option (List Char × List Char) :=
  if ',' ∈ text then some (text.takeWhile (· != ','), (text.dropWhile (· != ',')).drop 1) else none

/-- Text before and after the last comma. -/
def splitLastComma (text : List Char) : Option (List Char × List Char) :=
  (splitComma text.reverse).map fun (after, before) => (before.reverse, after.reverse)

/-- Text without a given last character. -/
def stripLast (c : Char) (text : List Char) : Option (List Char) :=
  match text.reverse with
  | [] => none
  | d :: rest => if d = c then some rest.reverse else none

/-- The two numbers of `range(a,b)`, from the text between the parentheses. -/
def parseRange (text : List Char) : Option ByteLiteral :=
  match splitComma text with
  | none => none
  | some (a, b) =>
    match parseNumber (trimSpaces a), parseNumber (trimSpaces b) with
    | some x, some y => some (.range x y)
    | _, _ => none

/-- The characters of an ASCII string, from the text after the opening quote. -/
def parseQuoted (text : List Char) : Option ByteLiteral :=
  match stripLast '"' text with
  | none => none
  | some chars => if chars.all (fun c => c != '"' && decide (c.toNat < 128)) then some (.ascii chars) else none

/-- A byte string (R89). -/
def parseLiteral : List Char → Option ByteLiteral
  | 'h' :: 'e' :: 'x' :: ':' :: digits => (parseHexPairs digits).map .hex
  | '"' :: text => parseQuoted text
  | 'r' :: 'a' :: 'n' :: 'g' :: 'e' :: '(' :: text => (stripLast ')' text).bind parseRange
  | _ => none

/-- The operand `last_node=<0|1>`. -/
def parseLastNode : List Char → Option Bool
  | ['l', 'a', 's', 't', '_', 'n', 'o', 'd', 'e', '=', '0'] => some false
  | ['l', 'a', 's', 't', '_', 'n', 'o', 'd', 'e', '=', '1'] => some true
  | _ => none

/-- The operands `<outlen>, <key>`. -/
def parseKeyed (text : List Char) : Option AsmLine :=
  match splitComma text with
  | none => none
  | some (n, key) =>
    match parseNumber (trimSpaces n), parseLiteral (trimSpaces key) with
    | some x, some k => some (.initKeyed x k)
    | _, _ => none

/-- The operands `<param>, last_node=<0|1>`. -/
def parseParam (text : List Char) : Option AsmLine :=
  match splitLastComma text with
  | none => none
  | some (param, flag) =>
    match parseLiteral (trimSpaces param), parseLastNode (trimSpaces flag) with
    | some p, some ln => some (.initParam p ln)
    | _, _ => none

/-- A line: the mnemonic, at least one space, the operands (R89). -/
def parseLine (line : List Char) : Option AsmLine :=
  let text := trimSpaces line
  let mnemonic := text.takeWhile fun c => c != ' ' && c != '\t'
  let operands := trimSpaces (text.drop mnemonic.length)
  if mnemonic = ['I', 'N', 'I', 'T', '_', 'P', 'L', 'A', 'I', 'N'] then (parseNumber operands).map .initPlain
  else if mnemonic = ['I', 'N', 'I', 'T', '_', 'K', 'E', 'Y', 'E', 'D'] then parseKeyed operands
  else if mnemonic = ['I', 'N', 'I', 'T', '_', 'P', 'A', 'R', 'A', 'M'] then parseParam operands
  else if mnemonic = ['U', 'P', 'D', 'A', 'T', 'E'] then (parseLiteral operands).map .update
  else if mnemonic = ['F', 'I', 'N', 'A', 'L'] then (parseNumber operands).map .final
  else none

/-! ### The listing -/

/-- A hex digit. -/
def hexDigit (n : Nat) : Char :=
  if n < 10 then Char.ofNat ('0'.toNat + n) else Char.ofNat ('a'.toNat + (n - 10))

/-- A byte as two hex digits. -/
def hexByte (b : Byte) : List Char :=
  [hexDigit (b.toNat / 16), hexDigit (b.toNat % 16)]

/-- `cw=0x........ payload=<bytes>` (R89). -/
def listing (t : Transaction) : List Char :=
  ['c', 'w', '=', '0', 'x'] ++ (littleEndianBytes 4 t.cw).reverse.flatMap hexByte ++
    [' ', 'p', 'a', 'y', 'l', 'o', 'a', 'd', '='] ++ t.payload.flatMap hexByte

end Sys2Proof.Machine
end

