-- ==== Sys2Proof/Machine/Instances.lean ====
section
/-! DEFINITION. Several engines (spec/60_exceptions.md R208): each has its own copy of every state element, and a
command to one reaches that one alone (log 16). -/

namespace Sys2Proof.Machine

/-- One step of engine number `k` of a system; a number that names no engine changes nothing. -/
def stepEngine (k : Nat) (engines : List State) : Host.Outcome (List State) Fault Refusal :=
  match engines[k]? with
  | none => .next engines
  | some s =>
    match step s with
    | .next t => .next (engines.set k t)
    | .fault r => .fault r
    | .refused r => .refused r

end Sys2Proof.Machine
end

