-- ==== Sys2Proof/Machine/Pseudo.lean ====
section
/-! DEFINITION. The pseudo-commands of spec/30_encoding.md: HASH (R92) and UPDATE_LONG (R93). They are sequences of
commands the host issues, add no state and have no command word (log 10). -/

namespace Sys2Proof.Machine

/-- Consecutive chunks of at most `size` bytes, in order. The first argument bounds their number. -/
def chunksOf (size : Nat) : Nat → List Byte → List (List Byte)
  | 0, _ => []
  | _ + 1, [] => []
  | n + 1, data => data.take size :: chunksOf size n (data.drop size)

/-- The chunks a byte string is sent in, each as long as UPDATE's LEN field allows, the last one shorter; none of an
empty string (R92, R93, log 10). -/
def updateChunks (data : List Byte) : List (List Byte) :=
  chunksOf Config.maxUpdateBytes data.length data

/-- `UPDATE_LONG data` (R93). It leaves the state a single UPDATE would, so an empty string is sent as one empty
UPDATE. -/
def updateLong (data : List Byte) : List Instr :=
  if data = [] then [.update []] else (updateChunks data).map .update

/-- `HASH outlen, key, data` (R92); no UPDATE when the data is empty. A key of 256 bytes or more does not fit the KEYLEN
field, and the spec does not say what HASH does with one. The model's choice (log 10) is INIT_KEYED with that key all
the same, which ends in InvalidLength as for every key of more than 64 bytes. -/
def hashCommands (outlen : Byte) (key data : List Byte) : List Instr :=
  (if key = [] then .initPlain outlen else .initKeyed outlen key) :: ((updateChunks data).map .update ++ [.final outlen])

/-- Commands issued one after the other, stopping at the first that leaves an error (R92; for UPDATE_LONG log 10). -/
def runCommands : List Instr → State → Host.Outcome State Fault Refusal
  | [], s => .next s
  | i :: rest, s =>
    match exec i s with
    | .next t => if t.err = .ok then runCommands rest t else .next t
    | .fault r => .fault r
    | .refused r => .refused r

end Sys2Proof.Machine
end

