-- ==== Sys2Proof/Machine/Reference.lean ====
section
/-! DEFINITION. BLAKE2b as a function of a whole message (spec/00_scope.md R1, R2), with no streaming state: the
blocks of the message are compressed in order, all but the last as interior blocks, the last with the final flags.
The engine's own operations do not use this file; claims compare the engine with it. -/

namespace Sys2Proof.Machine

/-- The chaining value an INIT from a parameter block starts from (spec/41_commands.md R145). -/
def initialChain (param : Vector Byte 64) : Vector Word 8 :=
  Vector.ofFn fun i => iv[i] ^^^ paramWord param i

/-- `t[0]` of a byte count (spec/10_state.md R21). -/
def countLow (n : Nat) : Word := BitVec.ofNat 64 n

/-- `t[1]` of a byte count, modulo 2^128 (spec/10_state.md R21, spec/20_memory.md R57). -/
def countHigh (n : Nat) : Word := BitVec.ofNat 64 (n / 2 ^ 64)

/-- How many of `n` absorbed bytes stand in blocks that are compressed as interior: the last block, whole or not, is
held back (spec/10_state.md R42). -/
def interiorBlocks (n : Nat) : Nat := (n - 1) / 128

/-- The chaining value after the first `n` blocks of `input` as interior blocks. -/
def chain (h0 : Vector Word 8) (input : List Byte) : Nat → Vector Word 8
  | 0 => h0
  | n + 1 =>
    compressWords (chain h0 input n) (countLow (128 * (n + 1))) (countHigh (128 * (n + 1))) 0 0
      ((input.drop (128 * n)).take 128)

/-- The bytes of `input` that no interior block takes. -/
def pendingBytes (input : List Byte) : List Byte :=
  input.drop (128 * interiorBlocks input.length)

/-- The chaining value after the final block, which is zero-padded and carries the message length. -/
def finalChain (h0 : Vector Word 8) (lastNode : Bool) (input : List Byte) : Vector Word 8 :=
  compressWords (chain h0 input (interiorBlocks input.length)) (countLow input.length) (countHigh input.length)
    mask64 (if lastNode then mask64 else 0)
    (pendingBytes input ++ zeros (128 - (pendingBytes input).length))

/-- The digest of `input` under a parameter block: as many bytes of the final chaining value as the block's
`digest_length` asks for (spec/20_memory.md R58). -/
def blake2b (param : Vector Byte 64) (lastNode : Bool) (input : List Byte) : List Byte :=
  (serialize (finalChain (initialChain param) lastNode input)).take (paramDigestLength param).toNat

end Sys2Proof.Machine
end

