-- ==== Sys2Proof/Safety.lean ====
section
/-! DEFINITION. What holds of the engine between two commands (spec/10_state.md section 6, spec/41_commands.md R167,
spec/70_reset_and_hazards.md R232), in the terms the claims use. -/

namespace Sys2Proof

/-- The three INIT commands. -/
def Instr.isInit : Instr → Bool
  | .initPlain _ => true
  | .initKeyed _ _ => true
  | .initParam _ _ => true
  | .update _ => false
  | .final _ => false

end Sys2Proof

namespace Sys2Proof.Machine

/-- The command the engine carries out next, if the next thing the host has issued is a transaction that decodes. -/
def State.nextCommand (s : State) : Option Instr :=
  match s.inbox with
  | .command t :: _ => decode t.cw t.payload
  | _ => none

/-- The next thing the host has issued is a reset. -/
def State.resetNext (s : State) : Bool :=
  match s.inbox with
  | .reset :: _ => true
  | .resetDuring _ :: _ => true
  | _ => false

/-- The state holds exactly what `input`, absorbed since an INIT that left the chaining value `h0`, leaves
(spec/10_state.md R42): the interior blocks compressed, the last 0 to 128 bytes pending at the bottom of a buffer that
is otherwise zero. -/
structure Absorbed (h0 : Vector Word 8) (input : List Byte) (s : State) : Prop where
  phase : s.phase = .ready
  f0 : s.f0 = 0
  f1 : s.f1 = 0
  h : s.h = chain h0 input (interiorBlocks input.length)
  t0 : s.t0 = countLow (128 * interiorBlocks input.length)
  t1 : s.t1 = countHigh (128 * interiorBlocks input.length)
  ncomp : s.ncomp = BitVec.ofNat 64 (interiorBlocks input.length)
  buflen : s.buflen = (pendingBytes input).length
  bufWf : s.buf.wf
  buf : ∀ a, readByte s.buf a = (pendingBytes input).getD a 0

/-- The state holds what FINAL leaves of `input`, absorbed since an INIT that left the chaining value `h0`
(spec/10_state.md R41, R43, spec/41_commands.md R163 to R165). -/
structure Finished (h0 : Vector Word 8) (input : List Byte) (s : State) : Prop where
  phase : s.phase = .finalized
  f0 : s.f0 = mask64
  f1 : s.f1 = if s.lastNode then mask64 else 0
  h : s.h = finalChain h0 s.lastNode input
  t0 : s.t0 = countLow input.length
  t1 : s.t1 = countHigh input.length
  ncomp : s.ncomp = BitVec.ofNat 64 (interiorBlocks input.length + 1)
  buflen : s.buflen = 0
  buf : s.buf = []

/-- What holds after every command, whatever its outcome. -/
structure Safe (s : State) : Prop where
  /-- The buffer is in canonical form, inside its 256 bytes. -/
  bufWf : s.buf.wf
  /-- At most one block is held (R42), within R40's 256. -/
  buflen : s.buflen ≤ 128
  /-- `buf[buflen..256)` is all zero (R167). -/
  tailZero : ∀ a, s.buflen ≤ a → readByte s.buf a = 0
  /-- KSCR is all zero (R40, R232). -/
  kscr : s.kscr = Vector.replicate 128 0
  /-- Once initialised, the digest length is in 1..64 (R40). -/
  digestLength : s.phase ≠ .idle → 1 ≤ s.digestLength.toNat ∧ s.digestLength.toNat ≤ 64
  /-- Each flag word is 0 or all-ones (R40). -/
  flags : (s.f0 = 0 ∨ s.f0 = mask64) ∧ (s.f1 = 0 ∨ s.f1 = mask64)
  /-- Before the first INIT every element of the hash state is as reset left it (R220, R222). -/
  idle : s.phase = .idle → s.h = Vector.replicate 8 0 ∧ s.t0 = 0 ∧ s.t1 = 0 ∧ s.f0 = 0 ∧ s.f1 = 0 ∧ s.ncomp = 0 ∧
    s.buflen = 0 ∧ s.lastNode = false ∧ s.digestLength = 0
  /-- In phase Ready some byte string has been absorbed, and the state holds what it leaves (R41, R42). -/
  ready : s.phase = .ready → ∃ h0 input, Absorbed h0 input s
  /-- In phase Finalized the state holds what FINAL leaves of some byte string (R41, R43). -/
  finished : s.phase = .finalized → ∃ h0 input, Finished h0 input s
  /-- A digest is held only in phase Finalized, of the length fixed at init (R29). -/
  digestLen : s.digestLen = if s.phase = .finalized then s.digestLength.toNat else 0
  /-- The digest register holds the first DIGEST_LEN bytes of Serialize(h), then zeros (R29, R166). -/
  digest : s.digest = digestRegister s.h s.digestLen

end Sys2Proof.Machine
end

