-- ==== Sys2Proof/Certificates/Slice0/Obligations.lean ====
section
/-! DEFINITION. The statements for the provers. Each docstring names the rule of spec/ it formalises; a statement about
a command gives the whole next state, so it is the command's frame as well. -/

open Sys2Proof Sys2Proof.Machine

/-! ### Reset and the step -/

/-- R220, R221: reset sets every element, also when it cuts a command short, and then no response is delivered. The
clause that what the host has issued after the reset still stands is the model's choice (log 8), no rule's. -/
def Obligations.ResetSetsEveryElement : Prop :=
  ((∀ i : Fin 8, State.reset.h[i] = 0) ∧ State.reset.t0 = 0 ∧ State.reset.t1 = 0 ∧ State.reset.f0 = 0 ∧
    State.reset.f1 = 0 ∧ (∀ a, readByte State.reset.buf a = 0) ∧ State.reset.buflen = 0 ∧
    State.reset.lastNode = false ∧ State.reset.digestLength = 0 ∧ State.reset.phase = .idle ∧
    State.reset.err = .ok ∧ (∀ j : Fin 64, State.reset.digest[j] = 0) ∧ State.reset.digestLen = 0 ∧
    State.reset.ncomp = 0 ∧ (∀ j : Fin 128, State.reset.kscr[j] = 0) ∧ statusWord State.reset = 0x00000000#32) ∧
  ∀ s rest, (s.inbox = .reset :: rest ∨ ∃ t, s.inbox = .resetDuring t :: rest) →
    step s = .next { State.reset with inbox := rest }

/-- R140: a transaction that decodes runs its command, on the state with the transaction taken (log 1, log 2). -/
def Obligations.StepRunsTheDecodedCommand : Prop :=
  ∀ s t rest i, s.inbox = .command t :: rest → decode t.cw t.payload = some i →
    step s = exec i { s with inbox := rest, output := none }

/-- R193, with R196's effect: a transaction that does not decode ends with IllegalCommand, in every phase, and with no
other effect. -/
def Obligations.IllegalTransactionOnlySetsErr : Prop :=
  ∀ s t rest, s.inbox = .command t :: rest → decode t.cw t.payload = none →
    step s = .next { s with
      inbox := rest
      kscr := Vector.replicate 128 0
      err := .illegalCommand
      output := some (.response (statusOf s.phase .illegalCommand) []) }

/-- R206: between commands the engine holds its state. That a step with nothing issued is the way to say so is the
model's choice (log 3). -/
def Obligations.NothingIssuedHoldsTheState : Prop :=
  ∀ s, s.inbox = [] → step s = .next s

/-- R64: what the host issues is taken in the order it was issued, one at a time, and nothing else is taken or added. -/
def Obligations.EventsAreTakenInIssueOrder : Prop :=
  ∀ s e rest t, s.inbox = e :: rest → step s = .next t → t.inbox = rest

/-- R7: the step is total; it has no refusal and no stuck outcome, and every transaction gets a response. -/
def Obligations.EveryStepAnswersNext : Prop :=
  ∀ s, ∃ t, step s = .next t ∧
    ∀ tx rest, s.inbox = .command tx :: rest → ∃ status bytes, t.output = some (.response status bytes)

/-- R87: every transaction returns the STATUS it leaves; a successful FINAL also returns the OUTLEN digest bytes; a
failing command returns no bytes. -/
def Obligations.ResponseIsStatusAndDigest : Prop :=
  ∀ s t rest u, s.inbox = .command t :: rest → step s = .next u →
    u.output = some (.response (statusWord u)
      (match decode t.cw t.payload with
       | some (.final outlen) => if u.err = .ok then u.digest.toList.take outlen.toNat else []
       | _ => []))

/-! ### Encoding -/

/-- R72 to R79: decoding the transaction of a well-formed command gives the command back. -/
def Obligations.DecodeInvertsEncode : Prop :=
  ∀ i : Instr, i.wellFormed = true → decode (encode i).cw (encode i).payload = some i

/-- R72 to R79: a transaction that decodes is the one encoding of its command, which is well formed. -/
def Obligations.EncodeInvertsDecode : Prop :=
  ∀ cw payload i, decode cw payload = some i → encode i = ⟨cw, payload⟩ ∧ i.wellFormed = true

/-- R78, R193, with the reserved bits of R72 to R76 as masks and PLEN of R71: exactly these transactions are illegal,
and they end with IllegalCommand, whatever the state. -/
def Obligations.IllegalExactlyByTheThreeCauses : Prop :=
  (∀ (cw : CommandWord) (payload : List Byte), decode cw payload = none ↔
    ((cw &&& 0xF#32) = 0 ∨ 6 ≤ (cw &&& 0xF#32).toNat) ∨
    (((cw &&& 0xF#32) = 1 ∧ (cw &&& 0xFFFF00F0#32) ≠ 0) ∨ ((cw &&& 0xF#32) = 2 ∧ (cw &&& 0xFF0000F0#32) ≠ 0) ∨
      ((cw &&& 0xF#32) = 3 ∧ (cw &&& 0xFFFFFFE0#32) ≠ 0) ∨ ((cw &&& 0xF#32) = 4 ∧ (cw &&& 0x000000F0#32) ≠ 0) ∨
      ((cw &&& 0xF#32) = 5 ∧ (cw &&& 0xFFFF00F0#32) ≠ 0)) ∨
    (((cw &&& 0xF#32) = 1 ∧ payload.length ≠ 0) ∨
      ((cw &&& 0xF#32) = 2 ∧ payload.length ≠ ((cw >>> 16) &&& 0xFF#32).toNat) ∨
      ((cw &&& 0xF#32) = 3 ∧ payload.length ≠ 64) ∨ ((cw &&& 0xF#32) = 4 ∧ payload.length ≠ (cw >>> 8).toNat) ∨
      ((cw &&& 0xF#32) = 5 ∧ payload.length ≠ 0))) ∧
  ∀ s t rest, s.inbox = .command t :: rest → decode t.cw t.payload = none →
    ∃ u, step s = .next u ∧ u.err = .illegalCommand

/-- R94: the words of the spec's encoding examples, all eleven rows, each with the payload its row names. -/
def Obligations.ExampleWordsDecode : Prop :=
  decode 0x00004001 [] = some (.initPlain 64) ∧ decode 0x00002001 [] = some (.initPlain 32) ∧
  decode 0x00404002 (ByteLiteral.range 0 64).bytes = some (.initKeyed 64 (ByteLiteral.range 0 64).bytes) ∧
  decode 0x00002002 [] = some (.initKeyed 32 []) ∧
  (∀ p : Vector Byte 64, decode 0x00000013 p.toList = some (.initParam true p)) ∧
  (∀ p : Vector Byte 64, decode 0x00000003 p.toList = some (.initParam false p)) ∧
  decode 0x00000304 [0x61, 0x62, 0x63] = some (.update [0x61, 0x62, 0x63]) ∧
  decode 0x00008004 (ByteLiteral.range 0 128).bytes = some (.update (ByteLiteral.range 0 128).bytes) ∧
  decode 0x00000004 [] = some (.update []) ∧ decode 0x00004005 [] = some (.final 64) ∧
  decode 0x00001005 [] = some (.final 16)

/-- R88: a transaction carried as bytes is 4 + PLEN(cw) bytes long, and a receiver finds where the next one starts. The
reader of a byte stream is log 14. -/
def Obligations.ByteStreamIsSplitAtTransactions : Prop :=
  ∀ (i : Instr) (rest : List Byte), i.wellFormed = true →
    (∃ n, payloadLength (encode i).cw = some n ∧ (encode i).bytes.length = 4 + n) ∧
    decodeBytes ((encode i).bytes ++ rest) = some (i, rest)

/-- R89, the lengths the assembler sets and the byte strings it takes (abstract syntax). That `range(a,b)` with `b` below
`a` is the empty string is the model's choice (log 12). -/
def Obligations.AssemblerSetsTheLengths : Prop :=
  (∀ n (key : ByteLiteral), n ≤ 255 → key.bytes.length ≤ 255 →
    ∃ i, assemble (.initKeyed n key) = some i ∧ encodePayload i = key.bytes ∧
      (outlenField (encodeWord i)).toNat = n ∧ (keylenField (encodeWord i)).toNat = key.bytes.length) ∧
  (∀ data : ByteLiteral, data.bytes.length ≤ 16777215 →
    ∃ i, assemble (.update data) = some i ∧ encodePayload i = data.bytes ∧
      (lenField (encodeWord i)).toNat = data.bytes.length) ∧
  (∀ (param : ByteLiteral) ln, param.bytes.length ≠ 64 → assemble (.initParam param ln) = none) ∧
  ∀ a b, (ByteLiteral.range a b).bytes.length = b - a ∧
    ∀ k, k < b - a → ((ByteLiteral.range a b).bytes.getD k 0).toNat = (a + k) % 256

/-! ### Codec, counter, parameter block -/

/-- R50, R51: the bytes of `load64` and `store64`, and that they are inverse to each other. -/
def Obligations.CodecIsInverse : Prop :=
  (∀ w : Word, load64 (store64 w) = w ∧ (store64 w).length = 8 ∧
    ∀ k : Fin 8, (store64 w).getD k 0 = w.extractLsb' (8 * k.val) 8) ∧
  (∀ s : List Byte, s.length = 8 → store64 (load64 s) = s ∧
    ∀ k : Fin 8, (load64 s).extractLsb' (8 * k.val) 8 = s.getD k 0)

/-- R54: byte `B[8i+k]` is bits `[8k+7:8k]` of message word `m[i]`. -/
def Obligations.MessageWordsAreLittleEndian : Prop :=
  ∀ (block : List Byte), block.length = 128 → ∀ (i : Fin 16),
    (decodeBlock block)[i] = load64 ((block.drop (8 * i.val)).take 8) ∧
    ∀ k : Fin 8, (decodeBlock block)[i].extractLsb' (8 * k.val) 8 = block.getD (8 * i.val + k.val) 0

/-- R58: Serialize(h) is the eight words stored in order; its byte `j` is bits `[8(j mod 8)+7 : 8(j mod 8)]` of
`h[j div 8]`; and its first `n` bytes are those of the first `ceil(n/8)` words, cut to `n`. -/
def Obligations.SerializeByteOrder : Prop :=
  ∀ (h : Vector Word 8), (serialize h).length = 64 ∧
    serialize h = store64 h[0] ++ store64 h[1] ++ store64 h[2] ++ store64 h[3] ++ store64 h[4] ++ store64 h[5] ++
      store64 h[6] ++ store64 h[7] ∧
    (∀ j : Fin 64, (serialize h).getD j.val 0 = (h[j.val / 8]).extractLsb' (8 * (j.val % 8)) 8) ∧
    ∀ n, n ≤ 64 → (serialize h).take n = (((h.toList.take ((n + 7) / 8)).flatMap store64).take n)

/-- R57: the counter increment is addition modulo 2^128, and writes nothing but `t`. -/
def Obligations.CounterAddsModulo128Bits : Prop :=
  ∀ (s : State) (k : Nat), k ≤ 128 →
    (incrementCounter k s).t1.toNat * 2 ^ 64 + (incrementCounter k s).t0.toNat =
      (s.t1.toNat * 2 ^ 64 + s.t0.toNat + k) % 2 ^ 128 ∧
    incrementCounter k s = { s with t0 := (incrementCounter k s).t0, t1 := (incrementCounter k s).t1 }

/-- R81, over the layout of R80: the first three words of a parameter block whose reserved bytes are 0. -/
def Obligations.ParamBlockWordView : Prop :=
  ∀ p : ParamFields, p.reserved = Vector.replicate 14 0 →
    paramWord p.block 0 = p.digestLength.setWidth 64 ||| (p.keyLength.setWidth 64 <<< 8) |||
      (p.fanout.setWidth 64 <<< 16) ||| (p.depth.setWidth 64 <<< 24) ||| (p.leafLength.setWidth 64 <<< 32) ∧
    paramWord p.block 1 = p.nodeOffset ∧
    paramWord p.block 2 = p.nodeDepth.setWidth 64 ||| (p.innerLength.setWidth 64 <<< 8) ∧
    paramWord p.block 3 = 0 ∧
    (p.block.toList.drop 32).take 16 = p.salt.toList ∧ (p.block.toList.drop 48).take 16 = p.personal.toList

/-- R82, R146: the words of the plain block, and the chaining value it gives. -/
def Obligations.PlainBlockChainingValue : Prop :=
  ∀ (outlen : Byte) (keylen : Nat), keylen ≤ 255 →
    paramWord (plainParam outlen keylen) 0 =
      0x0000000001010000#64 ||| (BitVec.ofNat 64 keylen <<< 8) ||| outlen.setWidth 64 ∧
    (∀ i : Fin 8, i ≠ 0 → paramWord (plainParam outlen keylen) i = 0) ∧
    (initialChain (plainParam outlen keylen))[0] =
      iv[0] ^^^ (0x01010000#64 ||| (BitVec.ofNat 64 keylen <<< 8) ||| outlen.setWidth 64) ∧
    ∀ i : Fin 8, i ≠ 0 → (initialChain (plainParam outlen keylen))[i] = iv[i]

/-! ### Compression -/

/-- R103, the derivation the rule gives (marked there as general knowledge, log 9): `IV[i]` is the first 64 bits of the
fractional part of the square root of the i-th prime. -/
def Obligations.IvIsFractionOfSquareRoots : Prop :=
  ∀ i : Fin 8, ∃ whole : Nat,
    (whole * 2 ^ 64 + iv[i].toNat) ^ 2 ≤ #v[2, 3, 5, 7, 11, 13, 17, 19][i] * 2 ^ 128 ∧
    #v[2, 3, 5, 7, 11, 13, 17, 19][i] * 2 ^ 128 < (whole * 2 ^ 64 + iv[i].toNat + 1) ^ 2

/-- R104, of the table's shape (general knowledge in the spec, log 9): every row is a permutation of 0..15, and rows 10
and 11 repeat rows 0 and 1. -/
def Obligations.SigmaRowsArePermutations : Prop :=
  (∀ r : Fin 12, ∀ x : Fin 16, x ∈ sigma[r].toList) ∧ sigma[10] = sigma[0] ∧ sigma[11] = sigma[1]

/-- R107's corner case (the spec's own inference): G is a bijection of the four words for fixed `x, y`. -/
def Obligations.MixingPrimitiveIsBijective : Prop :=
  ∀ x y : Word, Function.Bijective fun q : Quad => mixG q x y

/-- R113 (the spec's own inference): the four column applications may run in any order, and so may the four diagonal
ones, if the diagonal half follows the column half. -/
def Obligations.HalfRoundsRunInAnyOrder : Prop :=
  ∀ (m v : Vector Word 16) (r : Fin 12) (columns diagonals : List (Fin 8)),
    columns.Perm [0, 1, 2, 3] → diagonals.Perm [4, 5, 6, 7] →
    (columns ++ diagonals).foldl (applyG m r) v = Machine.round m v r

/-- R121 (the spec's own inference): Compress depends on `h`, `t`, `f`, `inc` and the block only. -/
def Obligations.CompressIsPure : Prop :=
  ∀ (s s' : State) (inc : Nat), s.h = s'.h → s.t0 = s'.t0 → s.t1 = s'.t1 → s.f0 = s'.f0 → s.f1 = s'.f1 →
    (∀ a, a < 128 → readByte s.buf a = readByte s'.buf a) →
    (compress inc s).h = (compress inc s').h ∧ (compress inc s).t0 = (compress inc s').t0 ∧
      (compress inc s).t1 = (compress inc s').t1

/-! ### The commands -/

/-- R147, with R145: INIT_PLAIN. The whole next state on a legal length; on an illegal one, only the error. -/
def Obligations.InitPlainResult : Prop :=
  ∀ (outlen : Byte) (s : State),
    (1 ≤ outlen.toNat ∧ outlen.toNat ≤ 64 →
      exec (.initPlain outlen) s = .next { s with
        h := Vector.ofFn fun i : Fin 8 => iv[i] ^^^ paramWord (plainParam outlen 0) i
        t0 := 0
        t1 := 0
        f0 := 0
        f1 := 0
        buf := []
        buflen := 0
        lastNode := false
        digestLength := outlen
        phase := .ready
        err := .ok
        digest := Vector.replicate 64 0
        digestLen := 0
        ncomp := 0
        output := some (.response 0x00000010#32 []) }) ∧
    (¬ (1 ≤ outlen.toNat ∧ outlen.toNat ≤ 64) →
      exec (.initPlain outlen) s = .next { s with
        kscr := Vector.replicate 128 0
        err := .invalidLength
        output := some (.response (statusOf s.phase .invalidLength) []) })

/-- R149, with R145 and R83: INIT_KEYED. On legal lengths the whole next state, with the buffer given byte by byte: the
key block, or nothing for an empty key. KSCR is wiped where a key was copied into it. -/
def Obligations.InitKeyedResult : Prop :=
  ∀ (outlen : Byte) (key : List Byte) (s : State),
    (1 ≤ outlen.toNat ∧ outlen.toNat ≤ 64 ∧ key.length ≤ 64 →
      ∃ buf : Memory, buf.wf ∧ (∀ a, readByte buf a = key.getD a 0) ∧
        exec (.initKeyed outlen key) s = .next { s with
          h := Vector.ofFn fun i : Fin 8 => iv[i] ^^^ paramWord (plainParam outlen key.length) i
          t0 := 0
          t1 := 0
          f0 := 0
          f1 := 0
          buf := buf
          buflen := if key = [] then 0 else 128
          lastNode := false
          digestLength := outlen
          phase := .ready
          err := .ok
          digest := Vector.replicate 64 0
          digestLen := 0
          ncomp := 0
          kscr := if key = [] then s.kscr else Vector.replicate 128 0
          output := some (.response 0x00000010#32 []) }) ∧
    (¬ (1 ≤ outlen.toNat ∧ outlen.toNat ≤ 64 ∧ key.length ≤ 64) →
      exec (.initKeyed outlen key) s = .next { s with
        kscr := Vector.replicate 128 0
        err := .invalidLength
        output := some (.response (statusOf s.phase .invalidLength) []) })

/-- R150 (the spec's own inference): with an empty key INIT_KEYED is INIT_PLAIN, errors included. -/
def Obligations.EmptyKeyIsInitPlain : Prop :=
  ∀ (outlen : Byte) (s : State), exec (.initKeyed outlen []) s = exec (.initPlain outlen) s

/-- R151, R152, with R145: INIT_PARAM. The whole next state of a block that passes, and the two errors. -/
def Obligations.InitParamResult : Prop :=
  ∀ (lastNode : Bool) (param : Vector Byte 64) (s : State),
    (1 ≤ param[0].toNat ∧ param[0].toNat ≤ 64 ∧ param[1].toNat ≤ 64 →
      (∀ k : Fin 64, 18 ≤ k.val → k.val < 32 → param[k] = 0) →
      exec (.initParam lastNode param) s = .next { s with
        h := Vector.ofFn fun i : Fin 8 => iv[i] ^^^ paramWord param i
        t0 := 0
        t1 := 0
        f0 := 0
        f1 := 0
        buf := []
        buflen := 0
        lastNode := lastNode
        digestLength := param[0]
        phase := .ready
        err := .ok
        digest := Vector.replicate 64 0
        digestLen := 0
        ncomp := 0
        output := some (.response 0x00000010#32 []) }) ∧
    (¬ (1 ≤ param[0].toNat ∧ param[0].toNat ≤ 64 ∧ param[1].toNat ≤ 64) →
      exec (.initParam lastNode param) s = .next { s with
        kscr := Vector.replicate 128 0
        err := .invalidLength
        output := some (.response (statusOf s.phase .invalidLength) []) }) ∧
    (1 ≤ param[0].toNat ∧ param[0].toNat ≤ 64 ∧ param[1].toNat ≤ 64 →
      ¬ (∀ k : Fin 64, 18 ≤ k.val → k.val < 32 → param[k] = 0) →
      exec (.initParam lastNode param) s = .next { s with
        kscr := Vector.replicate 128 0
        err := .invalidParameterBlock
        output := some (.response (statusOf s.phase .invalidParameterBlock) []) })

/-- R145's last sentence, with R231: what a successful INIT leaves owes nothing to the computation it discards. -/
def Obligations.InitDiscardsTheOldComputation : Prop :=
  ∀ (i : Instr) (s s' t t' : State),
    i.isInit = true → s.inbox = s'.inbox → s.kscr = s'.kscr → exec i s = .next t → exec i s' = .next t' → t.err = .ok →
    t' = t

/-- R160, with R155 through `Absorbed` (R42): UPDATE. In phase Ready a state that has absorbed `input` goes to one that
has absorbed `input ++ data`, and nothing but `h`, `t`, `buf`, `buflen`, `ncomp`, `err` and the response is written;
`Absorbed` gives every byte of the buffer. In the other phases only the error. -/
def Obligations.UpdateResult : Prop :=
  ∀ (data : List Byte) (s : State),
    (∀ h0 input, Absorbed h0 input s →
      ∃ t, exec (.update data) s = .next t ∧ Absorbed h0 (input ++ data) t ∧
        t = { s with
          h := t.h
          t0 := t.t0
          t1 := t.t1
          buf := t.buf
          buflen := t.buflen
          ncomp := t.ncomp
          err := .ok
          output := some (.response 0x00000010#32 []) }) ∧
    (s.phase = .idle → exec (.update data) s = .next { s with
      kscr := Vector.replicate 128 0
      err := .notInitialized
      output := some (.response 0x00000004#32 []) }) ∧
    (s.phase = .finalized → exec (.update data) s = .next { s with
      kscr := Vector.replicate 128 0
      err := .alreadyFinalized
      output := some (.response 0x00000022#32 []) })

/-- R156 (the spec's own inference), for every state in phase Ready with a canonical buffer and at most one block held:
UPDATE absorbs its bytes one at a time, a held block being compressed exactly when a byte after it arrives. -/
def Obligations.UpdateIsByteSerial : Prop :=
  ∀ (data : List Byte) (s : State), s.phase = .ready → s.buf.wf → s.buflen ≤ 128 →
    exec (.update data) s = .next { data.foldl absorbByte s with
      err := .ok
      output := some (.response 0x00000010#32 []) }

/-- R160's corner case: an empty UPDATE in phase Ready changes nothing but `err` (and returns its response). -/
def Obligations.EmptyUpdateChangesOnlyErr : Prop :=
  ∀ s : State, s.phase = .ready →
    exec (.update []) s = .next { s with err := .ok, output := some (.response 0x00000010#32 []) }

/-- R160, "not on how they were split across UPDATE commands": two UPDATEs are one UPDATE of both strings. -/
def Obligations.TwoUpdatesAreOne : Prop :=
  ∀ (a b : List Byte) (s t : State), s.phase = .ready → s.buf.wf → s.buflen ≤ 128 →
    exec (.update a) s = .next t → exec (.update b) t = exec (.update (a ++ b)) s

/-- R42 (the spec's own inference): what UPDATE leaves in `buflen`, `t` and NCOMP, as functions of the number of bytes
absorbed since the INIT, those of the UPDATE among them. -/
def Obligations.AbsorbedBytesDetermineTheCounts : Prop :=
  ∀ h0 input data s, Absorbed h0 input s →
    ∃ t, exec (.update data) s = .next t ∧
      t.buflen ≤ 128 ∧ (t.buflen = 0 ↔ input ++ data = []) ∧
      (input ++ data ≠ [] → t.buflen = ((input ++ data).length - 1) % 128 + 1) ∧
      t.t1.toNat * 2 ^ 64 + t.t0.toNat = ((input ++ data).length - t.buflen) % 2 ^ 128 ∧
      t.ncomp.toNat = ((input ++ data).length - t.buflen) / 128 % 2 ^ 64

/-- R163 to R166: FINAL. The whole next state in phase Ready with the right length, and the three errors. -/
def Obligations.FinalResult : Prop :=
  ∀ (outlen : Byte) (s : State),
    (∀ h0 input, Absorbed h0 input s → outlen = s.digestLength →
      exec (.final outlen) s = .next { s with
        h := finalChain h0 s.lastNode input
        t0 := countLow input.length
        t1 := countHigh input.length
        f0 := mask64
        f1 := if s.lastNode then mask64 else 0
        buf := []
        buflen := 0
        phase := .finalized
        err := .ok
        digest := Vector.ofFn fun j =>
          if j.val < outlen.toNat then (serialize (finalChain h0 s.lastNode input)).getD j 0 else 0
        digestLen := outlen.toNat
        ncomp := BitVec.ofNat 64 (interiorBlocks input.length + 1)
        output := some (.response 0x00000020#32
          ((serialize (finalChain h0 s.lastNode input)).take outlen.toNat)) }) ∧
    (s.phase = .idle → exec (.final outlen) s = .next { s with
      kscr := Vector.replicate 128 0
      err := .notInitialized
      output := some (.response 0x00000004#32 []) }) ∧
    (s.phase = .finalized → exec (.final outlen) s = .next { s with
      kscr := Vector.replicate 128 0
      err := .alreadyFinalized
      output := some (.response 0x00000022#32 []) }) ∧
    (s.phase = .ready → outlen ≠ s.digestLength → exec (.final outlen) s = .next { s with
      kscr := Vector.replicate 128 0
      err := .invalidLength
      output := some (.response 0x00000011#32 []) })

/-- R43 (the spec's own inference): after FINAL the counter is the number of bytes absorbed, and NCOMP is
`max(1, ceil(A / 128))`. -/
def Obligations.FinalCountsTheMessage : Prop :=
  ∀ h0 input s, Absorbed h0 input s →
    ∃ t, exec (.final s.digestLength) s = .next t ∧ t.phase = .finalized ∧
      t.t1.toNat * 2 ^ 64 + t.t0.toNat = input.length % 2 ^ 128 ∧
      t.ncomp.toNat = max 1 ((input.length + 127) / 128) % 2 ^ 64

/-! ### Errors -/

/-- R196: a transaction that leaves an error has written only `err` (and wiped KSCR), and its response is STATUS with no
digest byte. The clause that the transaction is then no longer waiting, and the field that holds the response, are the
model's choices (log 1, log 2), no rule's. -/
def Obligations.ErrorsArePrecise : Prop :=
  ∀ s tx rest t, s.inbox = .command tx :: rest → step s = .next t → t.err ≠ .ok →
    t = { s with
      inbox := rest
      kscr := Vector.replicate 128 0
      err := t.err
      output := some (.response (statusOf s.phase t.err) []) }

/-- R190, R191, R192, R194, R197: which code every transaction leaves, checked in the order of R197. -/
def Obligations.ErrorCodesFollowThePriority : Prop :=
  ∀ s tx rest, s.inbox = .command tx :: rest → ∃ u, step s = .next u ∧ u.err =
    match decode tx.cw tx.payload with
    | none => .illegalCommand
    | some (.initPlain outlen) => if 1 ≤ outlen.toNat ∧ outlen.toNat ≤ 64 then .ok else .invalidLength
    | some (.initKeyed outlen key) =>
      if 1 ≤ outlen.toNat ∧ outlen.toNat ≤ 64 ∧ key.length ≤ 64 then .ok else .invalidLength
    | some (.initParam _ param) =>
      if ¬ (1 ≤ param[0].toNat ∧ param[0].toNat ≤ 64 ∧ param[1].toNat ≤ 64) then .invalidLength
      else if ∃ k : Fin 64, 18 ≤ k.val ∧ k.val < 32 ∧ param[k] ≠ 0 then .invalidParameterBlock
      else .ok
    | some (.update _) =>
      match s.phase with
      | .idle => .notInitialized
      | .finalized => .alreadyFinalized
      | .ready => .ok
    | some (.final outlen) =>
      match s.phase with
      | .idle => .notInitialized
      | .finalized => .alreadyFinalized
      | .ready => if outlen ≠ s.digestLength then .invalidLength else .ok

/-! ### Rules about the whole machine -/

/-- R27: the encodings of the phase, its field of STATUS, its reset value and its transitions. Any successful INIT sets
Ready from any phase, a successful FINAL sets Finalized, a reset sets Idle, nothing else writes it. -/
def Obligations.PhaseTransitions : Prop :=
  (Phase.idle.code = 0 ∧ Phase.ready.code = 1 ∧ Phase.finalized.code = 2 ∧ ∀ p : Phase, p.code ≠ 3) ∧
  State.reset.phase = .idle ∧ (∀ s, (statusWord s).extractLsb' 4 2 = s.phase.code) ∧
  ∀ s t, step s = .next t → t.phase =
    if s.resetNext then .idle
    else match s.nextCommand with
      | none => s.phase
      | some (.initPlain _) => if t.err = .ok then .ready else s.phase
      | some (.initKeyed _ _) => if t.err = .ok then .ready else s.phase
      | some (.initParam _ _) => if t.err = .ok then .ready else s.phase
      | some (.update _) => s.phase
      | some (.final _) => if t.err = .ok then .finalized else s.phase

/-- R29: a successful FINAL writes DIGEST and DIGEST_LEN, a successful INIT clears both (as reset does), nothing else
writes them. -/
def Obligations.DigestRegisterWriters : Prop :=
  (State.reset.digestLen = 0 ∧ ∀ j : Fin 64, State.reset.digest[j] = 0) ∧
  ∀ s t, step s = .next t → s.resetNext = false →
    (∀ outlen, s.nextCommand = some (.final outlen) → t.err = .ok → t.digestLen = outlen.toNat ∧
      ∀ j : Fin 64, t.digest[j] = if j.val < t.digestLen then (serialize t.h).getD j.val 0 else 0) ∧
    (∀ i, s.nextCommand = some i → i.isInit = true → t.err = .ok → t.digestLen = 0 ∧ ∀ j : Fin 64, t.digest[j] = 0) ∧
    ((s.nextCommand = none ∨ t.err ≠ .ok ∨ ∃ data, s.nextCommand = some (.update data)) →
      t.digest = s.digest ∧ t.digestLen = s.digestLen)

/-- R40, R41, R42, R43, R167 hold of the state after reset. -/
def Obligations.ResetIsSafe : Prop :=
  Safe State.reset

/-- R40, R41, R42, R43, R167 (the spec's own inferences): what `Safe` says holds after every step from a state in which
it holds. -/
def Obligations.EveryStepKeepsSafe : Prop :=
  ∀ s t, Safe s → step s = .next t → Safe t

/-- R241 (the spec's own inference): counts, phase and error depend on the data's length, not on its bytes. -/
def Obligations.ControlIgnoresTheData : Prop :=
  ∀ (i i' : Instr) (s s' t t' : State),
    ((∃ data data', i = .update data ∧ i' = .update data' ∧ data.length = data'.length) ∨
      (∃ o key key', i = .initKeyed o key ∧ i' = .initKeyed o key' ∧ key.length = key'.length) ∨
      (∃ o, i = .final o ∧ i' = .final o)) →
    s.phase = s'.phase → s.buflen = s'.buflen → s.digestLength = s'.digestLength → s.t0 = s'.t0 → s.t1 = s'.t1 →
    s.ncomp = s'.ncomp → exec i s = .next t → exec i' s' = .next t' →
    t.err = t'.err ∧ t.phase = t'.phase ∧ t.buflen = t'.buflen ∧ t.digestLength = t'.digestLength ∧ t.t0 = t'.t0 ∧
      t.t1 = t'.t1 ∧ t.ncomp = t'.ncomp

/-- R232 (c): once a byte after it has arrived, the key block has left the buffer: the buffer is the same whatever the
key was, and KSCR is zero. -/
def Obligations.KeyBlockLeavesTheBuffer : Prop :=
  ∀ (o : Byte) (key key' data : List Byte) (s t u t' u' : State),
    1 ≤ o.toNat → o.toNat ≤ 64 → 1 ≤ key.length → key.length ≤ 64 → 1 ≤ key'.length → key'.length ≤ 64 →
    data ≠ [] → exec (.initKeyed o key) s = .next t → exec (.update data) t = .next u →
    exec (.initKeyed o key') s = .next t' → exec (.update data) t' = .next u' →
    u.buf = u'.buf ∧ u.buflen = u'.buflen ∧ u.kscr = Vector.replicate 128 0

/-- R208: a step of one engine leaves every other engine as it was. That a system is a list of engines is log 16. -/
def Obligations.EnginesAreIndependent : Prop :=
  ∀ (k : Nat) (engines after : List State), stepEngine k engines = .next after →
    after.length = engines.length ∧ (∀ j, j ≠ k → after[j]? = engines[j]?) ∧
    ∀ s, engines[k]? = some s → ∃ t, step s = .next t ∧ after[k]? = some t

/-! ### Observation -/

/-- R31, R34, with the codes of R86: the fields of STATUS and CONFIG. -/
def Obligations.StatusAndConfigFields : Prop :=
  (ErrorCode.ok.code = 0 ∧ ErrorCode.invalidLength.code = 1 ∧ ErrorCode.alreadyFinalized.code = 2 ∧
    ErrorCode.invalidParameterBlock.code = 3 ∧ ErrorCode.notInitialized.code = 4 ∧
    ErrorCode.illegalCommand.code = 5) ∧
  ∀ s : State,
    (statusWord s).extractLsb' 0 4 = s.err.code ∧ (statusWord s).extractLsb' 4 2 = s.phase.code ∧
    (statusWord s).extractLsb' 6 26 = 0 ∧
    (configWord s).extractLsb' 0 8 = s.digestLength ∧ (configWord s).getLsbD 8 = s.lastNode ∧
    (configWord s).extractLsb' 9 23 = 0

/-- R60, R32, R33, R35: every register of the window at its offset, reserved offsets 0, the digest byte by byte, and the
bytes of a register in the window. -/
def Obligations.WindowMap : Prop :=
  ∀ s : State,
    observe s 0x00 4 = (statusWord s).setWidth 64 ∧ observe s 0x04 4 = (configWord s).setWidth 64 ∧
    observe s 0x08 8 = s.t0 ∧ observe s 0x10 8 = s.t1 ∧
    (s.buflen ≤ 256 → observe s 0x18 4 = BitVec.ofNat 64 s.buflen) ∧
    (s.digestLen ≤ 64 → observe s 0x1C 4 = BitVec.ofNat 64 s.digestLen) ∧
    observe s 0x20 8 = s.ncomp ∧ (∀ o n, 0x28 ≤ o → o + n ≤ 0x40 → observe s o n = 0) ∧
    (∀ j : Fin 64, observe s (0x40 + j.val) 1 = s.digest[j].setWidth 64) ∧
    ∀ o n k, n ≤ 8 → k < n → (observe s o n).extractLsb' (8 * k) 8 = (observe s (o + k) 1).extractLsb' 0 8

/-- R61, R170: a read returns the window bytes little-endian, 0 at reserved offsets and beyond 0x7F, and changes no
element of the engine; a write is ignored. That the host's reads and writes are steps, and that they replace what the
last event returned, is the model's choice (log 1, log 2). That a read may start at 0x80 or above, and gives 0 there, is
read from R61 by inference (log 17). -/
def Obligations.WindowReadsAndWrites : Prop :=
  ∀ (s : State) (rest : List HostEvent),
    (∀ o size, s.inbox = .read o size :: rest →
      step s = .next { s with inbox := rest, output := some (.readValue (observe s o size.bytes)) }) ∧
    (∀ o data, s.inbox = .write o data :: rest → step s = .next { s with inbox := rest, output := none }) ∧
    (∀ o (size : ReadSize) k, k < 8 → (observe s o size.bytes).extractLsb' (8 * k) 8 =
      if k < size.bytes then (observe s (o + k) 1).extractLsb' 0 8 else 0) ∧
    ∀ o, (0x28 ≤ o ∧ o < 0x40) ∨ 0x80 ≤ o → observe s o 1 = 0

/-- R36: `h`, `f`, `buf` and KSCR cannot be observed. Two states that agree on the elements that have an observation
register read alike everywhere. -/
def Obligations.SecretsHaveNoObservationRegister : Prop :=
  ∀ (s s' : State), s.err = s'.err → s.phase = s'.phase → s.digestLength = s'.digestLength →
    s.lastNode = s'.lastNode → s.t0 = s'.t0 → s.t1 = s'.t1 → s.buflen = s'.buflen → s.digestLen = s'.digestLen →
    s.ncomp = s'.ncomp → s.digest = s'.digest → ∀ o n, observe s o n = observe s' o n

/-! ### Whole computations -/

/-- R1, R233: from any state, INIT_PARAM with a legal block, any UPDATEs, and FINAL, issued as transactions and carried
out by the step, return the BLAKE2b digest of the concatenated data. -/
def Obligations.StreamComputesBlake2b : Prop :=
  ∀ (s : State) (ln : Bool) (param : Vector Byte 64) (chunks : List (List Byte)),
    1 ≤ param[0].toNat → param[0].toNat ≤ 64 → param[1].toNat ≤ 64 →
    (∀ k : Fin 64, 18 ≤ k.val → k.val < 32 → param[k] = 0) → (∀ c ∈ chunks, c.length ≤ 16777215) →
    s.inbox = .command (encode (.initParam ln param)) ::
      (chunks.map fun c => HostEvent.command (encode (.update c))) ++ [.command (encode (.final param[0]))] →
    ∃ t, Sys2Proof.core.run (chunks.length + 2) s = .next t ∧ t.inbox = [] ∧
      t.output = some (.response 0x00000020#32 (blake2b param ln chunks.flatten))

/-- R92: HASH returns the digest of the data, with the key block in front when there is a key, and for illegal lengths
the error and no bytes. The form of the expansion, and the error for a key too long for the KEYLEN field, are log 10. -/
def Obligations.HashComputesBlake2b : Prop :=
  ∀ (outlen : Byte) (key data : List Byte) (s : State),
    (1 ≤ outlen.toNat ∧ outlen.toNat ≤ 64 ∧ key.length ≤ 64 →
      ∃ t, runCommands (hashCommands outlen key data) s = .next t ∧ t.err = .ok ∧
        t.output = some (.response 0x00000020#32 (blake2b (plainParam outlen key.length) false
          ((if key = [] then [] else key ++ zeros (128 - key.length)) ++ data)))) ∧
    (¬ (1 ≤ outlen.toNat ∧ outlen.toNat ≤ 64 ∧ key.length ≤ 64) →
      ∃ t, runCommands (hashCommands outlen key data) s = .next t ∧ t.err = .invalidLength ∧
        ∃ status, t.output = some (.response status []))

/-- R93 (the spec's own inference): UPDATE_LONG of a string of any length, in any phase, leaves the state a single
UPDATE of it would if LEN were unbounded. In phase Ready the buffer is as `Safe` says: canonical, with at most one block
held. -/
def Obligations.UpdateLongIsOneUpdate : Prop :=
  ∀ (data : List Byte) (s : State), (s.phase = .ready → s.buf.wf ∧ s.buflen ≤ 128) →
    runCommands (updateLong data) s = exec (.update data) s

/-- R153 (the spec's own inference): INIT_PARAM with the plain block of a key length, then the key block as the first
UPDATE, leaves the state INIT_KEYED leaves. -/
def Obligations.ParamThenKeyBlockIsInitKeyed : Prop :=
  ∀ (outlen : Byte) (key : List Byte) (s t : State),
    1 ≤ outlen.toNat → outlen.toNat ≤ 64 → 1 ≤ key.length → key.length ≤ 64 → s.kscr = Vector.replicate 128 0 →
    exec (.initParam false (plainParam outlen key.length)) s = .next t →
    exec (.update (key ++ zeros (128 - key.length))) t = exec (.initKeyed outlen key) s
end

