-- ==== Sys2Proof/Laws/Memory.lean ====
section
/-! SUPPORT. What the buffer operations do: a read after a write, the canonical form they keep, and that two canonical
memories that read alike are equal. -/

namespace Sys2Proof.Machine

@[simp] theorem readByte_nil (a : Nat) : readByte [] a = 0 := rfl

theorem readByte_cons (c : Host.Cell) (m : Memory) (a : Nat) :
    readByte (c :: m) a = if c.1 = a then c.2 else readByte m a := rfl

/-- An address below every listed one reads as unlisted. -/
theorem readByte_below {m : Memory} {a : Nat} (below : ∀ c ∈ m, a < c.1) : readByte m a = 0 := by
  induction m with
  | nil => rfl
  | cons c m ih =>
    have := below c (by simp)
    rw [readByte_cons, if_neg (by omega)]
    exact ih fun d hd => below d (by simp [hd])

theorem readByte_consCell {m : Memory} {a : Nat} (b : Byte) (below : ∀ c ∈ m, a < c.1) (x : Nat) :
    readByte (consCell a b m) x = if x = a then b else readByte m x := by
  unfold consCell
  by_cases hx : x = a
  · subst hx
    split
    · next h => rw [readByte_below below]; simp [h]
    · simp [readByte_cons]
  · rw [if_neg hx]
    split
    · rfl
    · simp [readByte_cons, Ne.symm hx]

/-- A read after a write: the byte written at its address, the old byte everywhere else. -/
theorem readByte_writeByte {m : Memory} (hm : m.wf) (a : Nat) (b : Byte) (x : Nat) :
    readByte (writeByte m a b) x = if x = a then b else readByte m x := by
  induction m with
  | nil => exact readByte_consCell b (by simp) x
  | cons c m ih =>
    obtain ⟨hs, hc⟩ := hm
    rw [List.pairwise_cons] at hs
    have hm' : Memory.wf m := ⟨hs.2, fun d hd => hc d (by simp [hd])⟩
    unfold writeByte
    split
    · next hlt =>
      refine readByte_consCell b (fun d hd => ?_) x
      rcases List.mem_cons.1 hd with rfl | hd
      · exact hlt
      · exact hlt.trans (hs.1 d hd)
    · split
      · next heq =>
        rw [readByte_consCell b (fun d hd => heq ▸ hs.1 d hd), readByte_cons]
        by_cases hx : x = a
        · simp [hx]
        · simp [hx, heq ▸ Ne.symm hx]
      · next hlt hne =>
        rw [readByte_cons, ih hm', readByte_cons]
        by_cases hx : x = a
        · simp [hx, Ne.symm hne]
        · simp [hx]

/-- Every cell of a written memory is an old one or the written one. -/
theorem mem_writeByte {m : Memory} {a : Nat} {b : Byte} {c : Host.Cell} (h : c ∈ writeByte m a b) :
    c ∈ m ∨ c = (a, b) ∧ b ≠ 0 := by
  have key : ∀ {m : Memory}, c ∈ consCell a b m → c ∈ m ∨ c = (a, b) ∧ b ≠ 0 := by
    intro m h
    unfold consCell at h
    split at h
    · exact .inl h
    · next hb =>
      rcases List.mem_cons.1 h with h | h
      · exact .inr ⟨h, hb⟩
      · exact .inl h
  induction m with
  | nil => exact key h
  | cons d m ih =>
    unfold writeByte at h
    split at h
    · exact key h
    · split at h
      · rcases key h with h | h
        · exact .inl (List.mem_cons_of_mem _ h)
        · exact .inr h
      · rcases List.mem_cons.1 h with rfl | h
        · exact .inl (by simp)
        · rcases ih h with h | h
          · exact .inl (List.mem_cons_of_mem _ h)
          · exact .inr h

theorem consCell_pairwise {m : Memory} {a : Nat} (b : Byte) (hm : m.Pairwise (fun x y => x.1 < y.1))
    (below : ∀ c ∈ m, a < c.1) : (consCell a b m).Pairwise (fun x y => x.1 < y.1) := by
  unfold consCell
  split
  · exact hm
  · exact List.pairwise_cons.2 ⟨below, hm⟩

/-- A write inside the buffer keeps the canonical form. -/
theorem writeByte_wf {m : Memory} (hm : m.wf) {a : Nat} (ha : a < 256) (b : Byte) : Memory.wf (writeByte m a b) := by
  refine ⟨?_, fun c hc => ?_⟩
  · obtain ⟨hs, -⟩ := hm
    induction m with
    | nil => exact consCell_pairwise b hs (by simp)
    | cons d m ih =>
      have hs' := List.pairwise_cons.1 hs
      unfold writeByte
      split
      · next hlt =>
        refine consCell_pairwise b hs fun c hc => ?_
        rcases List.mem_cons.1 hc with rfl | hc
        · exact hlt
        · exact hlt.trans (hs'.1 c hc)
      · split
        · next heq => exact consCell_pairwise b hs'.2 fun c hc => heq ▸ hs'.1 c hc
        · next hlt hne =>
          refine List.pairwise_cons.2 ⟨fun c hc => ?_, ih hs'.2⟩
          rcases mem_writeByte hc with hc | ⟨rfl, -⟩
          · exact hs'.1 c hc
          · simp only; omega
  · rcases mem_writeByte hc with hc | ⟨rfl, hb⟩
    · exact hm.2 c hc
    · exact ⟨ha, hb⟩

/-- Writing a string inside the buffer keeps the canonical form. -/
theorem bufWrite_wf {m : Memory} (hm : m.wf) {j : Nat} {bytes : List Byte} (hj : j + bytes.length ≤ 256) :
    Memory.wf (bufWrite m j bytes) := by
  induction bytes generalizing m j with
  | nil => exact hm
  | cons b rest ih =>
    simp only [List.length_cons] at hj
    exact ih (writeByte_wf hm (by omega) b) (by omega)

/-- A read after `BufWrite(j, s)`: the string's byte inside `[j, j+len(s))`, the old byte outside. -/
theorem readByte_bufWrite {m : Memory} (hm : m.wf) {j : Nat} {bytes : List Byte} (hj : j + bytes.length ≤ 256)
    (x : Nat) :
    readByte (bufWrite m j bytes) x =
      if j ≤ x ∧ x < j + bytes.length then bytes.getD (x - j) 0 else readByte m x := by
  induction bytes generalizing m j with
  | nil => rw [if_neg (by simp only [List.length_nil]; omega)]; rfl
  | cons b rest ih =>
    simp only [List.length_cons] at hj ⊢
    rw [bufWrite, ih (writeByte_wf hm (by omega) b) (by omega), readByte_writeByte hm]
    by_cases hx : x = j
    · subst hx
      rw [if_neg (by omega), if_pos rfl, if_pos (by omega)]
      simp
    · rw [if_neg hx]
      by_cases hin : j + 1 ≤ x ∧ x < j + 1 + rest.length
      · rw [if_pos hin, if_pos (by omega), show x - j = (x - (j + 1)) + 1 by omega, List.getD_cons_succ]
      · rw [if_neg hin, if_neg (by omega)]

/-- A cell of a canonical memory is what its address reads as. -/
theorem readByte_of_mem {m : Memory} (hm : m.wf) {c : Host.Cell} (hc : c ∈ m) : readByte m c.1 = c.2 := by
  induction m with
  | nil => simp at hc
  | cons d m ih =>
    obtain ⟨hs, hall⟩ := hm
    rw [List.pairwise_cons] at hs
    rcases List.mem_cons.1 hc with rfl | hc'
    · simp [readByte_cons]
    · rw [readByte_cons, if_neg (by have := hs.1 c hc'; omega)]
      exact ih ⟨hs.2, fun e he => hall e (by simp [he])⟩ hc'

/-- An address that does not read as unlisted is listed with what it reads as. -/
theorem mem_of_readByte {m : Memory} {a : Nat} (h : readByte m a ≠ 0) : (a, readByte m a) ∈ m := by
  induction m with
  | nil => simp at h
  | cons d m ih =>
    rw [readByte_cons] at h ⊢
    split
    · next hd => subst hd; simp
    · next hd =>
      rw [if_neg hd] at h
      exact List.mem_cons_of_mem _ (ih h)

/-- Nothing is stored outside the buffer. -/
theorem readByte_outside {m : Memory} (hm : m.wf) {a : Nat} (ha : 256 ≤ a) : readByte m a = 0 := by
  by_contra h
  have := (hm.2 _ (mem_of_readByte h)).1
  simp only at this
  omega

/-- Equal memories are equal data: two canonical memories that read alike are the same list. -/
theorem memory_ext {m n : Memory} (hm : m.wf) (hn : n.wf) (h : ∀ a, readByte m a = readByte n a) : m = n := by
  have sub : ∀ {p q : Memory}, p.wf → q.wf → (∀ a, readByte p a = readByte q a) → p ⊆ q := by
    intro p q hp _ hpq c hc
    have hr := readByte_of_mem hp hc
    have hne : readByte q c.1 ≠ 0 := by rw [← hpq, hr]; exact (hp.2 c hc).2
    have hin := mem_of_readByte hne
    rwa [← hpq, hr] at hin
  have nodup : ∀ {p : Memory}, p.wf → p.Nodup := fun hp =>
    hp.1.imp fun {a b} hab heq => by subst heq; exact absurd hab (lt_irrefl _)
  refine List.Perm.eq_of_pairwise (le := fun a b => a.1 < b.1)
    (fun a b _ _ hab hba => absurd hab (by omega)) hm.1 hn.1 ?_
  exact (List.perm_ext_iff_of_nodup (nodup hm) (nodup hn)).2 fun c =>
    ⟨fun hc => sub hm hn h hc, fun hc => sub hn hm (fun a => (h a).symm) hc⟩

@[simp] theorem length_bufRead (m : Memory) (j n : Nat) : (bufRead m j n).length = n := by
  simp [bufRead]

theorem getD_bufRead (m : Memory) (j n k : Nat) :
    (bufRead m j n).getD k 0 = if k < n then readByte m (j + k) else 0 := by
  simp only [bufRead, List.getD_eq_getElem?_getD, List.getElem?_map]
  split
  · next h => simp [h]
  · next h => simp [not_lt.1 h]

/-- Two memories that read alike on `[j, j+n)` give the same `BufRead(j, n)`. -/
theorem bufRead_congr {m m' : Memory} {j n : Nat} (h : ∀ k, k < n → readByte m (j + k) = readByte m' (j + k)) :
    bufRead m j n = bufRead m' j n :=
  List.map_congr_left fun k hk => h k (List.mem_range.1 hk)

end Sys2Proof.Machine
end

