-- ==== Sys2Proof/Laws/State.lean ====
section
/-! SUPPORT. What each named operation over the state does to each field: one lemma per field per operation, so that no
later proof unfolds a record update. -/

namespace Sys2Proof.Machine

/-! ### raise -/

@[simp] theorem raise_h (e : ErrorCode) (s : State) : (raise e s).h = s.h := by simp only [raise]
@[simp] theorem raise_t0 (e : ErrorCode) (s : State) : (raise e s).t0 = s.t0 := by simp only [raise]
@[simp] theorem raise_t1 (e : ErrorCode) (s : State) : (raise e s).t1 = s.t1 := by simp only [raise]
@[simp] theorem raise_f0 (e : ErrorCode) (s : State) : (raise e s).f0 = s.f0 := by simp only [raise]
@[simp] theorem raise_f1 (e : ErrorCode) (s : State) : (raise e s).f1 = s.f1 := by simp only [raise]
@[simp] theorem raise_buf (e : ErrorCode) (s : State) : (raise e s).buf = s.buf := by simp only [raise]
@[simp] theorem raise_buflen (e : ErrorCode) (s : State) : (raise e s).buflen = s.buflen := by simp only [raise]
@[simp] theorem raise_lastNode (e : ErrorCode) (s : State) : (raise e s).lastNode = s.lastNode := by simp only [raise]
@[simp] theorem raise_digestLength (e : ErrorCode) (s : State) : (raise e s).digestLength = s.digestLength := by simp only [raise]
@[simp] theorem raise_phase (e : ErrorCode) (s : State) : (raise e s).phase = s.phase := by simp only [raise]
@[simp] theorem raise_err (e : ErrorCode) (s : State) : (raise e s).err = e := by simp only [raise]
@[simp] theorem raise_digest (e : ErrorCode) (s : State) : (raise e s).digest = s.digest := by simp only [raise]
@[simp] theorem raise_digestLen (e : ErrorCode) (s : State) : (raise e s).digestLen = s.digestLen := by simp only [raise]
@[simp] theorem raise_ncomp (e : ErrorCode) (s : State) : (raise e s).ncomp = s.ncomp := by simp only [raise]
@[simp] theorem raise_kscr (e : ErrorCode) (s : State) : (raise e s).kscr = Vector.replicate 128 0 := by simp only [raise]
@[simp] theorem raise_inbox (e : ErrorCode) (s : State) : (raise e s).inbox = s.inbox := by simp only [raise]
@[simp] theorem raise_output (e : ErrorCode) (s : State) : (raise e s).output = some (.response (statusOf s.phase e) []) := by simp only [raise, statusWord]

/-! ### returnOk -/

@[simp] theorem returnOk_h (d : List Byte) (s : State) : (returnOk d s).h = s.h := by simp only [returnOk]
@[simp] theorem returnOk_t0 (d : List Byte) (s : State) : (returnOk d s).t0 = s.t0 := by simp only [returnOk]
@[simp] theorem returnOk_t1 (d : List Byte) (s : State) : (returnOk d s).t1 = s.t1 := by simp only [returnOk]
@[simp] theorem returnOk_f0 (d : List Byte) (s : State) : (returnOk d s).f0 = s.f0 := by simp only [returnOk]
@[simp] theorem returnOk_f1 (d : List Byte) (s : State) : (returnOk d s).f1 = s.f1 := by simp only [returnOk]
@[simp] theorem returnOk_buf (d : List Byte) (s : State) : (returnOk d s).buf = s.buf := by simp only [returnOk]
@[simp] theorem returnOk_buflen (d : List Byte) (s : State) : (returnOk d s).buflen = s.buflen := by simp only [returnOk]
@[simp] theorem returnOk_lastNode (d : List Byte) (s : State) : (returnOk d s).lastNode = s.lastNode := by simp only [returnOk]
@[simp] theorem returnOk_digestLength (d : List Byte) (s : State) : (returnOk d s).digestLength = s.digestLength := by simp only [returnOk]
@[simp] theorem returnOk_phase (d : List Byte) (s : State) : (returnOk d s).phase = s.phase := by simp only [returnOk]
@[simp] theorem returnOk_err (d : List Byte) (s : State) : (returnOk d s).err = .ok := by simp only [returnOk]
@[simp] theorem returnOk_digest (d : List Byte) (s : State) : (returnOk d s).digest = s.digest := by simp only [returnOk]
@[simp] theorem returnOk_digestLen (d : List Byte) (s : State) : (returnOk d s).digestLen = s.digestLen := by simp only [returnOk]
@[simp] theorem returnOk_ncomp (d : List Byte) (s : State) : (returnOk d s).ncomp = s.ncomp := by simp only [returnOk]
@[simp] theorem returnOk_kscr (d : List Byte) (s : State) : (returnOk d s).kscr = s.kscr := by simp only [returnOk]
@[simp] theorem returnOk_inbox (d : List Byte) (s : State) : (returnOk d s).inbox = s.inbox := by simp only [returnOk]
@[simp] theorem returnOk_output (d : List Byte) (s : State) : (returnOk d s).output = some (.response (statusOf s.phase .ok) d) := by simp only [returnOk, statusWord]

/-! ### incrementCounter -/

@[simp] theorem incrementCounter_h (k : Nat) (s : State) : (incrementCounter k s).h = s.h := by simp only [incrementCounter]
@[simp] theorem incrementCounter_t0 (k : Nat) (s : State) : (incrementCounter k s).t0 = s.t0 + BitVec.ofNat 64 k := by simp only [incrementCounter]
@[simp] theorem incrementCounter_t1 (k : Nat) (s : State) : (incrementCounter k s).t1 = if (s.t0 + BitVec.ofNat 64 k).toNat < k then s.t1 + 1 else s.t1 := by simp only [incrementCounter]
@[simp] theorem incrementCounter_f0 (k : Nat) (s : State) : (incrementCounter k s).f0 = s.f0 := by simp only [incrementCounter]
@[simp] theorem incrementCounter_f1 (k : Nat) (s : State) : (incrementCounter k s).f1 = s.f1 := by simp only [incrementCounter]
@[simp] theorem incrementCounter_buf (k : Nat) (s : State) : (incrementCounter k s).buf = s.buf := by simp only [incrementCounter]
@[simp] theorem incrementCounter_buflen (k : Nat) (s : State) : (incrementCounter k s).buflen = s.buflen := by simp only [incrementCounter]
@[simp] theorem incrementCounter_lastNode (k : Nat) (s : State) : (incrementCounter k s).lastNode = s.lastNode := by simp only [incrementCounter]
@[simp] theorem incrementCounter_digestLength (k : Nat) (s : State) : (incrementCounter k s).digestLength = s.digestLength := by simp only [incrementCounter]
@[simp] theorem incrementCounter_phase (k : Nat) (s : State) : (incrementCounter k s).phase = s.phase := by simp only [incrementCounter]
@[simp] theorem incrementCounter_err (k : Nat) (s : State) : (incrementCounter k s).err = s.err := by simp only [incrementCounter]
@[simp] theorem incrementCounter_digest (k : Nat) (s : State) : (incrementCounter k s).digest = s.digest := by simp only [incrementCounter]
@[simp] theorem incrementCounter_digestLen (k : Nat) (s : State) : (incrementCounter k s).digestLen = s.digestLen := by simp only [incrementCounter]
@[simp] theorem incrementCounter_ncomp (k : Nat) (s : State) : (incrementCounter k s).ncomp = s.ncomp := by simp only [incrementCounter]
@[simp] theorem incrementCounter_kscr (k : Nat) (s : State) : (incrementCounter k s).kscr = s.kscr := by simp only [incrementCounter]
@[simp] theorem incrementCounter_inbox (k : Nat) (s : State) : (incrementCounter k s).inbox = s.inbox := by simp only [incrementCounter]
@[simp] theorem incrementCounter_output (k : Nat) (s : State) : (incrementCounter k s).output = s.output := by simp only [incrementCounter]

/-! ### compress -/

@[simp] theorem compress_h (k : Nat) (s : State) : (compress k s).h = compressWords s.h (incrementCounter k s).t0 (incrementCounter k s).t1 s.f0 s.f1 (bufRead s.buf 0 128) := by simp only [compress, incrementCounter_h, incrementCounter_f0, incrementCounter_f1, incrementCounter_buf]
@[simp] theorem compress_t0 (k : Nat) (s : State) : (compress k s).t0 = (incrementCounter k s).t0 := by simp only [compress]
@[simp] theorem compress_t1 (k : Nat) (s : State) : (compress k s).t1 = (incrementCounter k s).t1 := by simp only [compress]
@[simp] theorem compress_f0 (k : Nat) (s : State) : (compress k s).f0 = s.f0 := by simp only [compress, incrementCounter_f0]
@[simp] theorem compress_f1 (k : Nat) (s : State) : (compress k s).f1 = s.f1 := by simp only [compress, incrementCounter_f1]
@[simp] theorem compress_buf (k : Nat) (s : State) : (compress k s).buf = s.buf := by simp only [compress, incrementCounter_buf]
@[simp] theorem compress_buflen (k : Nat) (s : State) : (compress k s).buflen = s.buflen := by simp only [compress, incrementCounter_buflen]
@[simp] theorem compress_lastNode (k : Nat) (s : State) : (compress k s).lastNode = s.lastNode := by simp only [compress, incrementCounter_lastNode]
@[simp] theorem compress_digestLength (k : Nat) (s : State) : (compress k s).digestLength = s.digestLength := by simp only [compress, incrementCounter_digestLength]
@[simp] theorem compress_phase (k : Nat) (s : State) : (compress k s).phase = s.phase := by simp only [compress, incrementCounter_phase]
@[simp] theorem compress_err (k : Nat) (s : State) : (compress k s).err = s.err := by simp only [compress, incrementCounter_err]
@[simp] theorem compress_digest (k : Nat) (s : State) : (compress k s).digest = s.digest := by simp only [compress, incrementCounter_digest]
@[simp] theorem compress_digestLen (k : Nat) (s : State) : (compress k s).digestLen = s.digestLen := by simp only [compress, incrementCounter_digestLen]
@[simp] theorem compress_ncomp (k : Nat) (s : State) : (compress k s).ncomp = s.ncomp + 1 := by simp only [compress, incrementCounter_ncomp]
@[simp] theorem compress_kscr (k : Nat) (s : State) : (compress k s).kscr = s.kscr := by simp only [compress, incrementCounter_kscr]
@[simp] theorem compress_inbox (k : Nat) (s : State) : (compress k s).inbox = s.inbox := by simp only [compress, incrementCounter_inbox]
@[simp] theorem compress_output (k : Nat) (s : State) : (compress k s).output = s.output := by simp only [compress, incrementCounter_output]

/-! ### initFromParam -/

@[simp] theorem initFromParam_h (p : Vector Byte 64) (ln : Bool) (s : State) : (initFromParam p ln s).h = Vector.ofFn fun i => iv[i] ^^^ paramWord p i := by simp only [initFromParam]
@[simp] theorem initFromParam_t0 (p : Vector Byte 64) (ln : Bool) (s : State) : (initFromParam p ln s).t0 = 0 := by simp only [initFromParam]
@[simp] theorem initFromParam_t1 (p : Vector Byte 64) (ln : Bool) (s : State) : (initFromParam p ln s).t1 = 0 := by simp only [initFromParam]
@[simp] theorem initFromParam_f0 (p : Vector Byte 64) (ln : Bool) (s : State) : (initFromParam p ln s).f0 = 0 := by simp only [initFromParam]
@[simp] theorem initFromParam_f1 (p : Vector Byte 64) (ln : Bool) (s : State) : (initFromParam p ln s).f1 = 0 := by simp only [initFromParam]
@[simp] theorem initFromParam_buf (p : Vector Byte 64) (ln : Bool) (s : State) : (initFromParam p ln s).buf = [] := by simp only [initFromParam]
@[simp] theorem initFromParam_buflen (p : Vector Byte 64) (ln : Bool) (s : State) : (initFromParam p ln s).buflen = 0 := by simp only [initFromParam]
@[simp] theorem initFromParam_lastNode (p : Vector Byte 64) (ln : Bool) (s : State) : (initFromParam p ln s).lastNode = ln := by simp only [initFromParam]
@[simp] theorem initFromParam_digestLength (p : Vector Byte 64) (ln : Bool) (s : State) : (initFromParam p ln s).digestLength = paramDigestLength p := by simp only [initFromParam]
@[simp] theorem initFromParam_phase (p : Vector Byte 64) (ln : Bool) (s : State) : (initFromParam p ln s).phase = .ready := by simp only [initFromParam]
@[simp] theorem initFromParam_err (p : Vector Byte 64) (ln : Bool) (s : State) : (initFromParam p ln s).err = s.err := by simp only [initFromParam]
@[simp] theorem initFromParam_digest (p : Vector Byte 64) (ln : Bool) (s : State) : (initFromParam p ln s).digest = Vector.replicate 64 0 := by simp only [initFromParam]
@[simp] theorem initFromParam_digestLen (p : Vector Byte 64) (ln : Bool) (s : State) : (initFromParam p ln s).digestLen = 0 := by simp only [initFromParam]
@[simp] theorem initFromParam_ncomp (p : Vector Byte 64) (ln : Bool) (s : State) : (initFromParam p ln s).ncomp = 0 := by simp only [initFromParam]
@[simp] theorem initFromParam_kscr (p : Vector Byte 64) (ln : Bool) (s : State) : (initFromParam p ln s).kscr = s.kscr := by simp only [initFromParam]
@[simp] theorem initFromParam_inbox (p : Vector Byte 64) (ln : Bool) (s : State) : (initFromParam p ln s).inbox = s.inbox := by simp only [initFromParam]
@[simp] theorem initFromParam_output (p : Vector Byte 64) (ln : Bool) (s : State) : (initFromParam p ln s).output = s.output := by simp only [initFromParam]

/-! ### fill -/

@[simp] theorem fill_h (c : List Byte) (s : State) : (fill c s).h = s.h := by simp only [fill]
@[simp] theorem fill_t0 (c : List Byte) (s : State) : (fill c s).t0 = s.t0 := by simp only [fill]
@[simp] theorem fill_t1 (c : List Byte) (s : State) : (fill c s).t1 = s.t1 := by simp only [fill]
@[simp] theorem fill_f0 (c : List Byte) (s : State) : (fill c s).f0 = s.f0 := by simp only [fill]
@[simp] theorem fill_f1 (c : List Byte) (s : State) : (fill c s).f1 = s.f1 := by simp only [fill]
@[simp] theorem fill_buf (c : List Byte) (s : State) : (fill c s).buf = bufWrite s.buf s.buflen c := by simp only [fill]
@[simp] theorem fill_buflen (c : List Byte) (s : State) : (fill c s).buflen = s.buflen + c.length := by simp only [fill]
@[simp] theorem fill_lastNode (c : List Byte) (s : State) : (fill c s).lastNode = s.lastNode := by simp only [fill]
@[simp] theorem fill_digestLength (c : List Byte) (s : State) : (fill c s).digestLength = s.digestLength := by simp only [fill]
@[simp] theorem fill_phase (c : List Byte) (s : State) : (fill c s).phase = s.phase := by simp only [fill]
@[simp] theorem fill_err (c : List Byte) (s : State) : (fill c s).err = s.err := by simp only [fill]
@[simp] theorem fill_digest (c : List Byte) (s : State) : (fill c s).digest = s.digest := by simp only [fill]
@[simp] theorem fill_digestLen (c : List Byte) (s : State) : (fill c s).digestLen = s.digestLen := by simp only [fill]
@[simp] theorem fill_ncomp (c : List Byte) (s : State) : (fill c s).ncomp = s.ncomp := by simp only [fill]
@[simp] theorem fill_kscr (c : List Byte) (s : State) : (fill c s).kscr = s.kscr := by simp only [fill]
@[simp] theorem fill_inbox (c : List Byte) (s : State) : (fill c s).inbox = s.inbox := by simp only [fill]
@[simp] theorem fill_output (c : List Byte) (s : State) : (fill c s).output = s.output := by simp only [fill]

/-! ### shiftBlock -/

@[simp] theorem shiftBlock_h (s : State) : (shiftBlock s).h = s.h := by simp only [shiftBlock]
@[simp] theorem shiftBlock_t0 (s : State) : (shiftBlock s).t0 = s.t0 := by simp only [shiftBlock]
@[simp] theorem shiftBlock_t1 (s : State) : (shiftBlock s).t1 = s.t1 := by simp only [shiftBlock]
@[simp] theorem shiftBlock_f0 (s : State) : (shiftBlock s).f0 = s.f0 := by simp only [shiftBlock]
@[simp] theorem shiftBlock_f1 (s : State) : (shiftBlock s).f1 = s.f1 := by simp only [shiftBlock]
@[simp] theorem shiftBlock_buf (s : State) : (shiftBlock s).buf = bufWrite s.buf 0 (bufRead s.buf 128 128 ++ zeros 128) := by simp only [shiftBlock]
@[simp] theorem shiftBlock_buflen (s : State) : (shiftBlock s).buflen = s.buflen - 128 := by simp only [shiftBlock]
@[simp] theorem shiftBlock_lastNode (s : State) : (shiftBlock s).lastNode = s.lastNode := by simp only [shiftBlock]
@[simp] theorem shiftBlock_digestLength (s : State) : (shiftBlock s).digestLength = s.digestLength := by simp only [shiftBlock]
@[simp] theorem shiftBlock_phase (s : State) : (shiftBlock s).phase = s.phase := by simp only [shiftBlock]
@[simp] theorem shiftBlock_err (s : State) : (shiftBlock s).err = s.err := by simp only [shiftBlock]
@[simp] theorem shiftBlock_digest (s : State) : (shiftBlock s).digest = s.digest := by simp only [shiftBlock]
@[simp] theorem shiftBlock_digestLen (s : State) : (shiftBlock s).digestLen = s.digestLen := by simp only [shiftBlock]
@[simp] theorem shiftBlock_ncomp (s : State) : (shiftBlock s).ncomp = s.ncomp := by simp only [shiftBlock]
@[simp] theorem shiftBlock_kscr (s : State) : (shiftBlock s).kscr = s.kscr := by simp only [shiftBlock]
@[simp] theorem shiftBlock_inbox (s : State) : (shiftBlock s).inbox = s.inbox := by simp only [shiftBlock]
@[simp] theorem shiftBlock_output (s : State) : (shiftBlock s).output = s.output := by simp only [shiftBlock]

/-! ### setFinalFlags -/

@[simp] theorem setFinalFlags_h (s : State) : (setFinalFlags s).h = s.h := by simp only [setFinalFlags]
@[simp] theorem setFinalFlags_t0 (s : State) : (setFinalFlags s).t0 = s.t0 := by simp only [setFinalFlags]
@[simp] theorem setFinalFlags_t1 (s : State) : (setFinalFlags s).t1 = s.t1 := by simp only [setFinalFlags]
@[simp] theorem setFinalFlags_f0 (s : State) : (setFinalFlags s).f0 = mask64 := by simp only [setFinalFlags]
@[simp] theorem setFinalFlags_f1 (s : State) : (setFinalFlags s).f1 = if s.lastNode then mask64 else s.f1 := by simp only [setFinalFlags]
@[simp] theorem setFinalFlags_buf (s : State) : (setFinalFlags s).buf = s.buf := by simp only [setFinalFlags]
@[simp] theorem setFinalFlags_buflen (s : State) : (setFinalFlags s).buflen = s.buflen := by simp only [setFinalFlags]
@[simp] theorem setFinalFlags_lastNode (s : State) : (setFinalFlags s).lastNode = s.lastNode := by simp only [setFinalFlags]
@[simp] theorem setFinalFlags_digestLength (s : State) : (setFinalFlags s).digestLength = s.digestLength := by simp only [setFinalFlags]
@[simp] theorem setFinalFlags_phase (s : State) : (setFinalFlags s).phase = s.phase := by simp only [setFinalFlags]
@[simp] theorem setFinalFlags_err (s : State) : (setFinalFlags s).err = s.err := by simp only [setFinalFlags]
@[simp] theorem setFinalFlags_digest (s : State) : (setFinalFlags s).digest = s.digest := by simp only [setFinalFlags]
@[simp] theorem setFinalFlags_digestLen (s : State) : (setFinalFlags s).digestLen = s.digestLen := by simp only [setFinalFlags]
@[simp] theorem setFinalFlags_ncomp (s : State) : (setFinalFlags s).ncomp = s.ncomp := by simp only [setFinalFlags]
@[simp] theorem setFinalFlags_kscr (s : State) : (setFinalFlags s).kscr = s.kscr := by simp only [setFinalFlags]
@[simp] theorem setFinalFlags_inbox (s : State) : (setFinalFlags s).inbox = s.inbox := by simp only [setFinalFlags]
@[simp] theorem setFinalFlags_output (s : State) : (setFinalFlags s).output = s.output := by simp only [setFinalFlags]

/-! ### padBuffer -/

@[simp] theorem padBuffer_h (s : State) : (padBuffer s).h = s.h := by simp only [padBuffer]
@[simp] theorem padBuffer_t0 (s : State) : (padBuffer s).t0 = s.t0 := by simp only [padBuffer]
@[simp] theorem padBuffer_t1 (s : State) : (padBuffer s).t1 = s.t1 := by simp only [padBuffer]
@[simp] theorem padBuffer_f0 (s : State) : (padBuffer s).f0 = s.f0 := by simp only [padBuffer]
@[simp] theorem padBuffer_f1 (s : State) : (padBuffer s).f1 = s.f1 := by simp only [padBuffer]
@[simp] theorem padBuffer_buf (s : State) : (padBuffer s).buf = bufWrite s.buf s.buflen (zeros (256 - s.buflen)) := by simp only [padBuffer]
@[simp] theorem padBuffer_buflen (s : State) : (padBuffer s).buflen = s.buflen := by simp only [padBuffer]
@[simp] theorem padBuffer_lastNode (s : State) : (padBuffer s).lastNode = s.lastNode := by simp only [padBuffer]
@[simp] theorem padBuffer_digestLength (s : State) : (padBuffer s).digestLength = s.digestLength := by simp only [padBuffer]
@[simp] theorem padBuffer_phase (s : State) : (padBuffer s).phase = s.phase := by simp only [padBuffer]
@[simp] theorem padBuffer_err (s : State) : (padBuffer s).err = s.err := by simp only [padBuffer]
@[simp] theorem padBuffer_digest (s : State) : (padBuffer s).digest = s.digest := by simp only [padBuffer]
@[simp] theorem padBuffer_digestLen (s : State) : (padBuffer s).digestLen = s.digestLen := by simp only [padBuffer]
@[simp] theorem padBuffer_ncomp (s : State) : (padBuffer s).ncomp = s.ncomp := by simp only [padBuffer]
@[simp] theorem padBuffer_kscr (s : State) : (padBuffer s).kscr = s.kscr := by simp only [padBuffer]
@[simp] theorem padBuffer_inbox (s : State) : (padBuffer s).inbox = s.inbox := by simp only [padBuffer]
@[simp] theorem padBuffer_output (s : State) : (padBuffer s).output = s.output := by simp only [padBuffer]

/-! ### emitDigest -/

@[simp] theorem emitDigest_h (n : Nat) (s : State) : (emitDigest n s).h = s.h := by simp only [emitDigest]
@[simp] theorem emitDigest_t0 (n : Nat) (s : State) : (emitDigest n s).t0 = s.t0 := by simp only [emitDigest]
@[simp] theorem emitDigest_t1 (n : Nat) (s : State) : (emitDigest n s).t1 = s.t1 := by simp only [emitDigest]
@[simp] theorem emitDigest_f0 (n : Nat) (s : State) : (emitDigest n s).f0 = s.f0 := by simp only [emitDigest]
@[simp] theorem emitDigest_f1 (n : Nat) (s : State) : (emitDigest n s).f1 = s.f1 := by simp only [emitDigest]
@[simp] theorem emitDigest_buf (n : Nat) (s : State) : (emitDigest n s).buf = s.buf := by simp only [emitDigest]
@[simp] theorem emitDigest_buflen (n : Nat) (s : State) : (emitDigest n s).buflen = s.buflen := by simp only [emitDigest]
@[simp] theorem emitDigest_lastNode (n : Nat) (s : State) : (emitDigest n s).lastNode = s.lastNode := by simp only [emitDigest]
@[simp] theorem emitDigest_digestLength (n : Nat) (s : State) : (emitDigest n s).digestLength = s.digestLength := by simp only [emitDigest]
@[simp] theorem emitDigest_phase (n : Nat) (s : State) : (emitDigest n s).phase = s.phase := by simp only [emitDigest]
@[simp] theorem emitDigest_err (n : Nat) (s : State) : (emitDigest n s).err = s.err := by simp only [emitDigest]
@[simp] theorem emitDigest_digest (n : Nat) (s : State) : (emitDigest n s).digest = digestRegister s.h n := by simp only [emitDigest]
@[simp] theorem emitDigest_digestLen (n : Nat) (s : State) : (emitDigest n s).digestLen = n := by simp only [emitDigest]
@[simp] theorem emitDigest_ncomp (n : Nat) (s : State) : (emitDigest n s).ncomp = s.ncomp := by simp only [emitDigest]
@[simp] theorem emitDigest_kscr (n : Nat) (s : State) : (emitDigest n s).kscr = s.kscr := by simp only [emitDigest]
@[simp] theorem emitDigest_inbox (n : Nat) (s : State) : (emitDigest n s).inbox = s.inbox := by simp only [emitDigest]
@[simp] theorem emitDigest_output (n : Nat) (s : State) : (emitDigest n s).output = s.output := by simp only [emitDigest]

/-! ### closeComputation -/

@[simp] theorem closeComputation_h (s : State) : (closeComputation s).h = s.h := by simp only [closeComputation]
@[simp] theorem closeComputation_t0 (s : State) : (closeComputation s).t0 = s.t0 := by simp only [closeComputation]
@[simp] theorem closeComputation_t1 (s : State) : (closeComputation s).t1 = s.t1 := by simp only [closeComputation]
@[simp] theorem closeComputation_f0 (s : State) : (closeComputation s).f0 = s.f0 := by simp only [closeComputation]
@[simp] theorem closeComputation_f1 (s : State) : (closeComputation s).f1 = s.f1 := by simp only [closeComputation]
@[simp] theorem closeComputation_buf (s : State) : (closeComputation s).buf = [] := by simp only [closeComputation]
@[simp] theorem closeComputation_buflen (s : State) : (closeComputation s).buflen = 0 := by simp only [closeComputation]
@[simp] theorem closeComputation_lastNode (s : State) : (closeComputation s).lastNode = s.lastNode := by simp only [closeComputation]
@[simp] theorem closeComputation_digestLength (s : State) : (closeComputation s).digestLength = s.digestLength := by simp only [closeComputation]
@[simp] theorem closeComputation_phase (s : State) : (closeComputation s).phase = .finalized := by simp only [closeComputation]
@[simp] theorem closeComputation_err (s : State) : (closeComputation s).err = s.err := by simp only [closeComputation]
@[simp] theorem closeComputation_digest (s : State) : (closeComputation s).digest = s.digest := by simp only [closeComputation]
@[simp] theorem closeComputation_digestLen (s : State) : (closeComputation s).digestLen = s.digestLen := by simp only [closeComputation]
@[simp] theorem closeComputation_ncomp (s : State) : (closeComputation s).ncomp = s.ncomp := by simp only [closeComputation]
@[simp] theorem closeComputation_kscr (s : State) : (closeComputation s).kscr = s.kscr := by simp only [closeComputation]
@[simp] theorem closeComputation_inbox (s : State) : (closeComputation s).inbox = s.inbox := by simp only [closeComputation]
@[simp] theorem closeComputation_output (s : State) : (closeComputation s).output = s.output := by simp only [closeComputation]

/-! ### resetEngine -/

@[simp] theorem resetEngine_h (s : State) : (resetEngine s).h = State.reset.h := by simp only [resetEngine]
@[simp] theorem resetEngine_t0 (s : State) : (resetEngine s).t0 = State.reset.t0 := by simp only [resetEngine]
@[simp] theorem resetEngine_t1 (s : State) : (resetEngine s).t1 = State.reset.t1 := by simp only [resetEngine]
@[simp] theorem resetEngine_f0 (s : State) : (resetEngine s).f0 = State.reset.f0 := by simp only [resetEngine]
@[simp] theorem resetEngine_f1 (s : State) : (resetEngine s).f1 = State.reset.f1 := by simp only [resetEngine]
@[simp] theorem resetEngine_buf (s : State) : (resetEngine s).buf = State.reset.buf := by simp only [resetEngine]
@[simp] theorem resetEngine_buflen (s : State) : (resetEngine s).buflen = State.reset.buflen := by simp only [resetEngine]
@[simp] theorem resetEngine_lastNode (s : State) : (resetEngine s).lastNode = State.reset.lastNode := by simp only [resetEngine]
@[simp] theorem resetEngine_digestLength (s : State) : (resetEngine s).digestLength = State.reset.digestLength := by simp only [resetEngine]
@[simp] theorem resetEngine_phase (s : State) : (resetEngine s).phase = State.reset.phase := by simp only [resetEngine]
@[simp] theorem resetEngine_err (s : State) : (resetEngine s).err = State.reset.err := by simp only [resetEngine]
@[simp] theorem resetEngine_digest (s : State) : (resetEngine s).digest = State.reset.digest := by simp only [resetEngine]
@[simp] theorem resetEngine_digestLen (s : State) : (resetEngine s).digestLen = State.reset.digestLen := by simp only [resetEngine]
@[simp] theorem resetEngine_ncomp (s : State) : (resetEngine s).ncomp = State.reset.ncomp := by simp only [resetEngine]
@[simp] theorem resetEngine_kscr (s : State) : (resetEngine s).kscr = State.reset.kscr := by simp only [resetEngine]
@[simp] theorem resetEngine_inbox (s : State) : (resetEngine s).inbox = s.inbox := by simp only [resetEngine]
@[simp] theorem resetEngine_output (s : State) : (resetEngine s).output = State.reset.output := by simp only [resetEngine]

end Sys2Proof.Machine
end

