-- ==== Sys2Proof/Laws/Absorb.lean ====
section
/-! SUPPORT. Absorbing bytes: Absorb is its byte-serial form, splitting the data changes nothing, and one more byte
takes a state that has absorbed `input` to one that has absorbed it with the byte behind. -/

namespace Sys2Proof.Machine

/-! ### Fields that no absorbing writes -/

/-- What filling, compressing and shifting leave alone. -/
structure SameOutside (s t : State) : Prop where
  f0 : t.f0 = s.f0
  f1 : t.f1 = s.f1
  lastNode : t.lastNode = s.lastNode
  digestLength : t.digestLength = s.digestLength
  phase : t.phase = s.phase
  err : t.err = s.err
  digest : t.digest = s.digest
  digestLen : t.digestLen = s.digestLen
  kscr : t.kscr = s.kscr
  inbox : t.inbox = s.inbox
  output : t.output = s.output

theorem SameOutside.refl (s : State) : SameOutside s s := by constructor <;> rfl

theorem SameOutside.trans {s t u : State} (h : SameOutside s t) (k : SameOutside t u) : SameOutside s u :=
  ⟨k.f0.trans h.f0, k.f1.trans h.f1, k.lastNode.trans h.lastNode, k.digestLength.trans h.digestLength,
    k.phase.trans h.phase, k.err.trans h.err, k.digest.trans h.digest, k.digestLen.trans h.digestLen,
    k.kscr.trans h.kscr, k.inbox.trans h.inbox, k.output.trans h.output⟩

theorem sameOutside_fill (c : List Byte) (s : State) : SameOutside s (fill c s) := by constructor <;> simp

theorem sameOutside_shift_compress (k : Nat) (s : State) : SameOutside s (shiftBlock (compress k s)) := by
  constructor <;> simp

theorem sameOutside_drain (n : Nat) (s : State) : SameOutside s (drain n s) := by
  induction n generalizing s with
  | zero => exact .refl s
  | succ n ih =>
    unfold drain
    split
    · exact (sameOutside_shift_compress 128 s).trans (ih _)
    · exact .refl s

theorem sameOutside_absorbLoop (n : Nat) (data : List Byte) (s : State) : SameOutside s (absorbLoop n data s) := by
  induction n generalizing data s with
  | zero => exact .refl s
  | succ n ih =>
    unfold absorbLoop
    split
    · exact .refl s
    · exact ((sameOutside_fill _ s).trans (sameOutside_drain _ _)).trans (ih _ _)

/-- Absorbing writes `h`, `t`, `buf`, `buflen` and `ncomp` at most (R160). -/
theorem sameOutside_absorb (data : List Byte) (s : State) : SameOutside s (absorb data s) :=
  sameOutside_absorbLoop _ _ _

/-! ### Absorb is byte-serial (R156) -/

@[simp] theorem length_zeros (n : Nat) : (zeros n).length = n := by simp [zeros]

@[simp] theorem getD_zeros (n k : Nat) : (zeros n).getD k 0 = 0 := by
  simp only [zeros, List.getD_eq_getElem?_getD, List.getElem?_replicate]
  split <;> rfl

@[simp] theorem fill_nil (s : State) : fill [] s = s := rfl

theorem bufWrite_append (m : Memory) (j : Nat) (a b : List Byte) :
    bufWrite m j (a ++ b) = bufWrite (bufWrite m j a) (j + a.length) b := by
  induction a generalizing m j with
  | nil => rfl
  | cons x a ih => simp only [List.cons_append, bufWrite, ih, List.length_cons]; congr 1; omega

theorem fill_append (a b : List Byte) (s : State) : fill (a ++ b) s = fill b (fill a s) := by
  simp only [fill, bufWrite_append, List.length_append, Nat.add_assoc]

/-- What the shift leaves at each address: the upper half moved down, zeros above. -/
theorem readByte_shiftBlock {s : State} (hw : s.buf.wf) (x : Nat) :
    readByte (shiftBlock s).buf x = if x < 128 then readByte s.buf (128 + x) else 0 := by
  rw [shiftBlock_buf, readByte_bufWrite hw (by simp)]
  by_cases hx : x < 256
  · rw [if_pos (by simp; omega)]
    by_cases hlo : x < 128
    · rw [if_pos hlo, Nat.sub_zero, List.getD_append _ _ _ _ (by simpa using hlo), getD_bufRead, if_pos hlo]
    · rw [if_neg hlo, Nat.sub_zero, List.getD_append_right _ _ _ _ (by simp; omega), getD_zeros]
  · rw [if_neg (by simp; omega), if_neg (by omega), readByte_outside hw (by omega)]

theorem shiftBlock_wf {s : State} (hw : s.buf.wf) : (shiftBlock s).buf.wf := by
  rw [shiftBlock_buf]
  exact bufWrite_wf hw (by simp)

/-- A held block is compressed and shifted out the same whether the bytes behind it are written before or after. -/
theorem shift_compress_fill {s : State} (hw : s.buf.wf) (hl : s.buflen = 128) {c : List Byte} (hc : c.length ≤ 128) :
    shiftBlock (compress 128 (fill c s)) = fill c (shiftBlock (compress 128 s)) := by
  have hfill : Memory.wf (fill c s).buf := by rw [fill_buf]; exact bufWrite_wf hw (by omega)
  have hblock : bufRead (fill c s).buf 0 128 = bufRead s.buf 0 128 :=
    bufRead_congr fun k hk => by
      rw [fill_buf, readByte_bufWrite hw (by omega), if_neg (by omega)]
  have hlen : (shiftBlock (compress 128 s)).buflen = 0 := by simp [hl]
  have hbuf : (shiftBlock (compress 128 (fill c s))).buf = (fill c (shiftBlock (compress 128 s))).buf := by
    have hw1 : (compress 128 s).buf.wf := by rw [compress_buf]; exact hw
    have hw2 : (compress 128 (fill c s)).buf.wf := by rw [compress_buf]; exact hfill
    have hw3 : (shiftBlock (compress 128 s)).buf.wf := shiftBlock_wf hw1
    refine memory_ext (shiftBlock_wf hw2) (by rw [fill_buf]; exact bufWrite_wf hw3 (by omega)) fun x => ?_
    rw [readByte_shiftBlock hw2, fill_buf, hlen, readByte_bufWrite hw3 (by omega), readByte_shiftBlock hw1,
      compress_buf, compress_buf, fill_buf]
    by_cases hx : x < 128
    · rw [if_pos hx, readByte_bufWrite hw (by omega), if_pos hx, hl]
      by_cases hin : x < c.length
      · rw [if_pos (by omega), if_pos (by omega), show 128 + x - 128 = x - 0 by omega]
      · rw [if_neg (by omega), if_neg (by omega)]
    · rw [if_neg hx, if_neg (by omega), if_neg hx]
  have hh : (compress 128 (fill c s)).h = (compress 128 s).h := by
    simp only [compress_h, incrementCounter_t0, incrementCounter_t1, fill_h, fill_t0, fill_t1, fill_f0, fill_f1, hblock]
  apply State.ext
  case h => simpa only [shiftBlock_h, fill_h] using hh
  case buf => exact hbuf
  case buflen => simp only [shiftBlock_buflen, compress_buflen, fill_buflen]; omega
  all_goals simp

theorem drain_small {s : State} (h : s.buflen ≤ 128) (n : Nat) : drain n s = s := by
  cases n with
  | zero => rfl
  | succ n => rw [drain, if_neg (by omega)]

theorem drain_one {s : State} (h : 128 < s.buflen) (h' : s.buflen ≤ 256) (n : Nat) :
    drain (n + 1) s = shiftBlock (compress 128 s) := by
  rw [drain, if_pos h]
  exact drain_small (by simp only [shiftBlock_buflen, compress_buflen]; omega) n

/-- What one absorbed byte keeps: a canonical buffer with at most one block held. -/
theorem absorbByte_keeps {s : State} (hw : s.buf.wf) (hl : s.buflen ≤ 128) (b : Byte) :
    (absorbByte s b).buf.wf ∧ (absorbByte s b).buflen ≤ 128 := by
  unfold absorbByte
  split
  · have hw' : (compress 128 s).buf.wf := by rw [compress_buf]; exact hw
    refine ⟨?_, ?_⟩
    · rw [fill_buf]
      refine bufWrite_wf (shiftBlock_wf hw') ?_
      simp only [shiftBlock_buflen, compress_buflen, List.length_cons, List.length_nil]; omega
    · simp only [fill_buflen, shiftBlock_buflen, compress_buflen, List.length_cons, List.length_nil]; omega
  · refine ⟨?_, ?_⟩
    · rw [fill_buf]
      exact bufWrite_wf hw (by simp only [List.length_cons, List.length_nil]; omega)
    · simp only [fill_buflen, List.length_cons, List.length_nil]; omega

theorem absorbBytes_keeps {s : State} (hw : s.buf.wf) (hl : s.buflen ≤ 128) (data : List Byte) :
    (data.foldl absorbByte s).buf.wf ∧ (data.foldl absorbByte s).buflen ≤ 128 := by
  induction data generalizing s with
  | nil => exact ⟨hw, hl⟩
  | cons b data ih =>
    obtain ⟨hw', hl'⟩ := absorbByte_keeps hw hl b
    exact ih hw' hl'

/-- Bytes that fit beside what is held are only written. -/
theorem absorbBytes_fit {s : State} {c : List Byte} (h : s.buflen + c.length ≤ 128) :
    c.foldl absorbByte s = fill c s := by
  induction c generalizing s with
  | nil => rfl
  | cons b c ih =>
    simp only [List.length_cons] at h
    have hb : absorbByte s b = fill [b] s := by
      simp only [absorbByte]
      rw [if_neg (by omega)]
    rw [List.foldl_cons, hb, ih (by simp only [fill_buflen, List.length_cons, List.length_nil]; omega),
      ← fill_append]
    rfl

/-- One turn of the outer loop of R155 is the byte-serial absorbing of its chunk. -/
theorem drain_fill {s : State} (hw : s.buf.wf) (hl : s.buflen ≤ 128) {c : List Byte}
    (hc : s.buflen + c.length ≤ 256) :
    drain (fill c s).buflen (fill c s) = c.foldl absorbByte s := by
  by_cases hsmall : s.buflen + c.length ≤ 128
  · rw [drain_small (by simpa using hsmall), absorbBytes_fit hsmall]
  · obtain ⟨c1, c2, rfl, hlen1⟩ : ∃ c1 c2, c = c1 ++ c2 ∧ c1.length = 128 - s.buflen :=
      ⟨_, _, (List.take_append_drop (128 - s.buflen) c).symm, by rw [List.length_take]; omega⟩
    rw [List.length_append] at hc hsmall
    have hw1 : (fill c1 s).buf.wf := by rw [fill_buf]; exact bufWrite_wf hw (by omega)
    have hl1 : (fill c1 s).buflen = 128 := by simp only [fill_buflen]; omega
    rw [List.foldl_append, absorbBytes_fit (c := c1) (by omega), fill_append]
    cases c2 with
    | nil => rw [List.length_nil] at hsmall; omega
    | cons b r =>
      have hb : absorbByte (fill c1 s) b = fill [b] (shiftBlock (compress 128 (fill c1 s))) := by
        simp only [absorbByte]
        rw [if_pos hl1]
      rw [List.length_cons] at hc hsmall
      have hfit : (absorbByte (fill c1 s) b).buflen + r.length ≤ 128 := by
        rw [hb]
        simp only [fill_buflen, shiftBlock_buflen, compress_buflen, List.length_cons, List.length_nil] at *
        omega
      have htot : (fill (b :: r) (fill c1 s)).buflen = 129 + r.length := by
        rw [fill_buflen, hl1, List.length_cons]; omega
      rw [List.foldl_cons, absorbBytes_fit hfit, hb, ← fill_append [b] r, List.singleton_append, htot,
        show 129 + r.length = (128 + r.length) + 1 by omega,
        drain_one (by rw [htot]; omega) (by rw [htot]; omega)]
      exact shift_compress_fill hw1 hl1 (by simp only [List.length_cons]; omega)

theorem absorbLoop_eq_foldl (n : Nat) (data : List Byte) {s : State} (hw : s.buf.wf) (hl : s.buflen ≤ 128)
    (hn : data.length < n) : absorbLoop n data s = data.foldl absorbByte s := by
  induction n generalizing data s with
  | zero => omega
  | succ n ih =>
    unfold absorbLoop
    split
    · next h => subst h; rfl
    · next h =>
      have hpos : 0 < data.length := List.length_pos_iff.2 h
      have hk : (data.take (min (256 - s.buflen) data.length)).length = min (256 - s.buflen) data.length := by simp
      have hturn := drain_fill hw hl (c := data.take (min (256 - s.buflen) data.length)) (by rw [hk]; omega)
      obtain ⟨hw', hl'⟩ := absorbBytes_keeps hw hl (data.take (min (256 - s.buflen) data.length))
      simp only
      rw [hturn, ih _ hw' hl' (by rw [List.length_drop]; omega), ← List.foldl_append, List.take_append_drop]

/-- Absorb is the byte-serial form (R156), from every state that holds at most one block in a canonical buffer. -/
theorem absorb_eq_foldl {s : State} (hw : s.buf.wf) (hl : s.buflen ≤ 128) (data : List Byte) :
    absorb data s = data.foldl absorbByte s :=
  absorbLoop_eq_foldl _ _ hw hl (Nat.lt_succ_self _)

theorem absorb_keeps {s : State} (hw : s.buf.wf) (hl : s.buflen ≤ 128) (data : List Byte) :
    (absorb data s).buf.wf ∧ (absorb data s).buflen ≤ 128 := by
  rw [absorb_eq_foldl hw hl]
  exact absorbBytes_keeps hw hl data

/-! ### What has been absorbed (R42) -/

/-- The counter after an increment is the counter of the sum. -/
theorem incrementCounter_count {s : State} {n : Nat} (h0 : s.t0 = countLow n) (h1 : s.t1 = countHigh n) {k : Nat}
    (hk : k < 2 ^ 64) :
    (incrementCounter k s).t0 = countLow (n + k) ∧ (incrementCounter k s).t1 = countHigh (n + k) := by
  constructor
  · rw [incrementCounter_t0, h0]
    simp [countLow, BitVec.ofNat_add]
  · rw [incrementCounter_t1, h0, h1]
    simp only [countLow, countHigh, ← BitVec.ofNat_add, BitVec.toNat_ofNat]
    split
    · next hlt =>
      rw [show (1 : Word) = BitVec.ofNat 64 1 from rfl, ← BitVec.ofNat_add]
      congr 1
      omega
    · next hge =>
      congr 1
      omega

/-- Only the bytes of the blocks it covers decide a chaining value. -/
theorem chain_append (h0 : Vector Word 8) (input extra : List Byte) {n : Nat} (hn : 128 * n ≤ input.length) :
    chain h0 (input ++ extra) n = chain h0 input n := by
  induction n with
  | zero => rfl
  | succ n ih =>
    rw [chain, chain, ih (by omega), List.drop_append_of_le_length (by omega),
      List.take_append_of_le_length (by rw [List.length_drop]; omega)]

theorem length_pendingBytes (input : List Byte) :
    (pendingBytes input).length = input.length - 128 * interiorBlocks input.length := by
  simp [pendingBytes]

theorem length_pendingBytes_le (input : List Byte) : (pendingBytes input).length ≤ 128 := by
  rw [length_pendingBytes, interiorBlocks]
  omega

/-- A freshly initialised state has absorbed nothing. -/
theorem absorbed_initFromParam (param : Vector Byte 64) (lastNode : Bool) (s : State) :
    Absorbed (initialChain param) [] (initFromParam param lastNode s) where
  phase := rfl
  f0 := rfl
  f1 := rfl
  h := rfl
  t0 := rfl
  t1 := rfl
  ncomp := rfl
  buflen := rfl
  bufWf := by simp [Memory.wf]
  buf := by simp [pendingBytes]

/-- One more byte. -/
theorem absorbed_absorbByte {h0 : Vector Word 8} {input : List Byte} {s : State} (hs : Absorbed h0 input s) (b : Byte) :
    Absorbed h0 (input ++ [b]) (absorbByte s b) := by
  obtain ⟨hphase, hf0, hf1, hh, ht0, ht1, hn, hl, hw, hbuf⟩ := hs
  have hlp := length_pendingBytes input
  have hle := length_pendingBytes_le input
  by_cases hfull : s.buflen = 128
  · have hcount : interiorBlocks (input ++ [b]).length = interiorBlocks input.length + 1 := by
      simp only [List.length_append, List.length_singleton, interiorBlocks] at *; omega
    have hinput : input.length = 128 * (interiorBlocks input.length + 1) := by
      simp only [interiorBlocks] at *; omega
    have hpend : pendingBytes (input ++ [b]) = [b] := by
      rw [pendingBytes, hcount, List.drop_append, ← hinput]
      simp
    have hblock : bufRead s.buf 0 128 = (input.drop (128 * interiorBlocks input.length)).take 128 := by
      apply List.ext_getElem
      · simp only [length_bufRead, List.length_take, List.length_drop]; omega
      · intro k hk hk'
        have hk2 : k < (pendingBytes input).length := by simp at hk; omega
        have := hbuf k
        rw [List.getD_eq_getElem _ _ hk2] at this
        simp only [bufRead, List.getElem_map, List.getElem_range, Nat.zero_add, this, List.getElem_take]
        rfl
    obtain ⟨hc0, hc1⟩ := incrementCounter_count ht0 ht1 (k := 128) (by omega)
    have hab : absorbByte s b = fill [b] (shiftBlock (compress 128 s)) := by
      simp only [absorbByte]; rw [if_pos hfull]
    have hw1 : (compress 128 s).buf.wf := by rw [compress_buf]; exact hw
    rw [hab]
    refine ⟨by simpa using hphase, by simpa using hf0, by simpa using hf1, ?_, ?_, ?_, ?_, ?_, ?_, fun a => ?_⟩
    · rw [hcount, chain_append _ _ _ (by omega), chain, ← hblock]
      simp only [fill_h, shiftBlock_h, compress_h, hc0, hc1, hf0, hf1, hh, Nat.mul_succ]
    · rw [hcount, Nat.mul_succ]; simpa using hc0
    · rw [hcount, Nat.mul_succ]; simpa using hc1
    · rw [hcount, BitVec.ofNat_add]; simp only [fill_ncomp, shiftBlock_ncomp, compress_ncomp, hn]; rfl
    · rw [hpend]; simp [hfull]
    · rw [fill_buf]
      exact bufWrite_wf (shiftBlock_wf hw1) (by simp [hfull])
    · rw [hpend, fill_buf, readByte_bufWrite (shiftBlock_wf hw1) (by simp [hfull])]
      simp only [shiftBlock_buflen, compress_buflen, hfull, List.length_singleton, Nat.sub_self, Nat.zero_add]
      split
      · rw [Nat.sub_zero]
      · next hin =>
        have ha : a ≠ 0 := by omega
        have hhi : (pendingBytes input).length ≤ 128 + a := by omega
        rw [readByte_shiftBlock hw1, compress_buf, hbuf, List.getD_eq_default _ _ hhi,
          List.getD_eq_default [b] _ (by rw [List.length_singleton]; omega)]
        exact ite_self 0
  · have hcount : interiorBlocks (input ++ [b]).length = interiorBlocks input.length := by
      simp only [List.length_append, List.length_singleton, interiorBlocks] at *; omega
    have hle' : 128 * interiorBlocks input.length ≤ input.length := by simp only [interiorBlocks]; omega
    have hpend : pendingBytes (input ++ [b]) = pendingBytes input ++ [b] := by
      rw [pendingBytes, hcount, List.drop_append_of_le_length hle', pendingBytes]
    have hab : absorbByte s b = fill [b] s := by
      simp only [absorbByte]; rw [if_neg hfull]
    rw [hab]
    refine ⟨by simpa using hphase, by simpa using hf0, by simpa using hf1, ?_, ?_, ?_, ?_, ?_, ?_, fun a => ?_⟩
    · rw [hcount, chain_append _ _ _ hle', fill_h]; exact hh
    · rw [hcount, fill_t0]; exact ht0
    · rw [hcount, fill_t1]; exact ht1
    · rw [hcount, fill_ncomp]; exact hn
    · rw [hpend, fill_buflen, hl]; simp
    · rw [fill_buf]
      exact bufWrite_wf hw (by simp; omega)
    · rw [hpend, fill_buf, readByte_bufWrite hw (by simp; omega), hl, hbuf]
      simp only [List.length_singleton]
      split
      · next hin =>
        have : a = (pendingBytes input).length := by omega
        subst this
        rw [List.getD_append_right _ _ _ _ (le_refl _)]
      · next hin =>
        by_cases hlt : a < (pendingBytes input).length
        · rw [List.getD_append _ _ _ _ hlt]
        · rw [List.getD_eq_default _ _ (by omega), List.getD_eq_default _ _ (by simp; omega)]

/-- Any further bytes. -/
theorem absorbed_absorb {h0 : Vector Word 8} {input : List Byte} {s : State} (hs : Absorbed h0 input s)
    (data : List Byte) : Absorbed h0 (input ++ data) (absorb data s) := by
  have hl : s.buflen ≤ 128 := by rw [hs.buflen]; exact length_pendingBytes_le input
  rw [absorb_eq_foldl hs.bufWf hl]
  clear hl
  induction data generalizing s input with
  | nil => simpa using hs
  | cons b data ih =>
    have := ih (absorbed_absorbByte hs b)
    rwa [List.append_assoc] at this

end Sys2Proof.Machine
end

