-- ==== Sys2Proof/Laws/Codec.lean ====
section
/-! SUPPORT. The word codec (spec/20_memory.md R50, R51): the bytes of a word, and the word of some bytes. -/

namespace Sys2Proof.Machine

theorem length_littleEndianBytes {w : Nat} (n : Nat) (x : BitVec w) : (littleEndianBytes n x).length = n := by
  simp [littleEndianBytes]

theorem littleEndian_cons (b : Byte) (bytes : List Byte) :
    littleEndian (b :: bytes) = b.toNat + 256 * littleEndian bytes := rfl

theorem littleEndian_lt (bytes : List Byte) : littleEndian bytes < 256 ^ bytes.length := by
  induction bytes with
  | nil => simp [littleEndian]
  | cons b bytes ih =>
    have := b.isLt
    rw [littleEndian_cons, List.length_cons, Nat.pow_succ]
    omega

/-- The bytes of a value stand for the value, modulo what `n` bytes hold. -/
theorem littleEndian_littleEndianBytes {w : Nat} (n : Nat) (x : BitVec w) :
    littleEndian (littleEndianBytes n x) = x.toNat % 256 ^ n := by
  have from_byte : ∀ m j, littleEndian ((List.range' j m).map (byteAt x)) = x.toNat / 256 ^ j % 256 ^ m := by
    intro m
    induction m with
    | zero => intro j; simp [littleEndian, Nat.mod_one]
    | succ m ih =>
      intro j
      have hb : (byteAt x j).toNat = x.toNat / 256 ^ j % 256 := by
        rw [byteAt, BitVec.extractLsb'_toNat, Nat.shiftRight_eq_div_pow, Nat.pow_mul]
      rw [List.range'_succ, List.map_cons, littleEndian_cons, ih, hb, Nat.pow_succ (m := m), Nat.mul_comm (256 ^ m) 256,
        Nat.mod_mul, Nat.div_div_eq_div_mul, ← Nat.pow_succ]
  rw [littleEndianBytes, List.range_eq_range', from_byte]
  simp

/-- Byte `k` of the number some bytes stand for is the `k`-th of them. -/
theorem littleEndian_div_mod (bytes : List Byte) {k : Nat} (hk : k < bytes.length) :
    littleEndian bytes / 256 ^ k % 256 = (bytes.getD k 0).toNat := by
  induction bytes generalizing k with
  | nil => simp at hk
  | cons b bytes ih =>
    have hb := b.isLt
    rw [littleEndian_cons]
    cases k with
    | zero => simp; omega
    | succ k =>
      rw [List.getD_cons_succ, ← ih (by simpa using hk), Nat.pow_succ, Nat.mul_comm (256 ^ k), ← Nat.div_div_eq_div_mul,
        show (b.toNat + 256 * littleEndian bytes) / 256 = littleEndian bytes by omega]

/-- Byte `k` of the word of some bytes that fit it. -/
theorem byteAt_ofNat_littleEndian {w : Nat} (bytes : List Byte) (k : Nat) (hw : 8 * bytes.length ≤ w) :
    byteAt (BitVec.ofNat w (littleEndian bytes)) k = bytes.getD k 0 := by
  have hlt := littleEndian_lt bytes
  have hle : 256 ^ bytes.length ≤ 2 ^ w := by
    rw [show 256 = 2 ^ 8 from rfl, ← Nat.pow_mul]
    exact Nat.pow_le_pow_right (by omega) hw
  apply BitVec.eq_of_toNat_eq
  rw [byteAt, BitVec.extractLsb'_toNat, BitVec.toNat_ofNat, Nat.mod_eq_of_lt (a := littleEndian bytes) (by omega),
    Nat.shiftRight_eq_div_pow, Nat.pow_mul]
  by_cases hk : k < bytes.length
  · exact littleEndian_div_mod bytes hk
  · have hout : 256 ^ bytes.length ≤ 256 ^ k := Nat.pow_le_pow_right (by omega) (by omega)
    rw [List.getD_eq_default _ _ (by omega), show (2 : Nat) ^ 8 = 256 from rfl, Nat.div_eq_of_lt (by omega)]
    rfl

theorem getD_littleEndianBytes {w : Nat} (n : Nat) (x : BitVec w) {k : Nat} (hk : k < n) :
    (littleEndianBytes n x).getD k 0 = byteAt x k := by
  rw [List.getD_eq_getElem _ _ (by rwa [length_littleEndianBytes])]
  simp [littleEndianBytes]

/-- A word of whole bytes is decided by its bytes. -/
theorem word_ext {n : Nat} {x y : BitVec (8 * n)} (h : ∀ k, k < n → byteAt x k = byteAt y k) : x = y := by
  apply BitVec.eq_of_getLsbD_eq
  intro i hi
  have := congrArg (fun b => b.getLsbD (i % 8)) (h (i / 8) (by omega))
  simp only [byteAt, BitVec.getLsbD_extractLsb', show i % 8 < 8 by omega, decide_true, Bool.true_and] at this
  rwa [show 8 * (i / 8) + i % 8 = i by omega] at this

theorem length_store64 (w : Word) : (store64 w).length = 8 := length_littleEndianBytes 8 w

theorem length_serialize (h : Vector Word 8) : (serialize h).length = 64 := by
  simp [serialize, List.length_flatMap, length_store64]

/-- Byte `j` of some words stored one after the other. -/
theorem getD_flatMap_store64 (words : List Word) {j : Nat} (hj : j < 8 * words.length) :
    (words.flatMap store64).getD j 0 = byteAt (words.getD (j / 8) 0) (j % 8) := by
  induction words generalizing j with
  | nil => simp at hj
  | cons w words ih =>
    rw [List.flatMap_cons]
    by_cases hlt : j < 8
    · rw [List.getD_append _ _ _ _ (by rw [length_store64]; exact hlt), store64, getD_littleEndianBytes 8 w hlt,
        show j / 8 = 0 by omega, show j % 8 = j by omega]
      rfl
    · rw [List.getD_append_right _ _ _ _ (by rw [length_store64]; omega), length_store64,
        ih (by rw [List.length_cons] at hj; omega), show j / 8 = (j - 8) / 8 + 1 by omega, List.getD_cons_succ,
        show (j - 8) % 8 = j % 8 by omega]

end Sys2Proof.Machine
end

