-- ==== Sys2Proof/Laws/Commands.lean ====
section
/-! SUPPORT. What the commands' meanings are made of: the checks as propositions, everything a command can do
(`exec_cases`), the elements that absorbing carries along untouched, the key path of INIT_KEYED and the end of FINAL. -/

namespace Sys2Proof.Machine

/-! ### The checks -/

theorem legalOutlen_iff (n : Nat) : legalOutlen n = true ↔ 1 ≤ n ∧ n ≤ 64 := by simp [legalOutlen]

theorem legalKeylen_iff (n : Nat) : legalKeylen n = true ↔ n ≤ 64 := by simp [legalKeylen]

theorem reservedClear_iff (p : Vector Byte 64) :
    reservedClear p = true ↔ ∀ k : Fin 64, 18 ≤ k.val → k.val < 32 → p[k] = 0 := by
  simp only [reservedClear, List.all_eq_true, beq_iff_eq]
  constructor
  · intro h k hlo hhi
    refine h _ (List.mem_iff_getElem.2 ⟨k.val - 18, by simp; omega, ?_⟩)
    simp [show 18 + (k.val - 18) = k.val by omega]
  · intro h b hb
    obtain ⟨j, hj, rfl⟩ := List.mem_iff_getElem.1 hb
    simp only [List.length_take, List.length_drop, Vector.length_toList] at hj
    simpa using h ⟨18 + j, by omega⟩ (by simp) (by simp; omega)

/-! ### Everything a command can do -/

/-- A command ends in an error and has done nothing else, or it succeeds in one of the five ways. -/
theorem exec_cases {i : Instr} {s t : State} (h : exec i s = .next t) :
    (∃ e, e ≠ .ok ∧ t = raise e s) ∨
    (∃ o, i = .initPlain o ∧ legalOutlen o.toNat = true ∧ t = returnOk [] (initFromParam (plainParam o 0) false s)) ∨
    (∃ o key, i = .initKeyed o key ∧ legalOutlen o.toNat = true ∧ legalKeylen key.length = true ∧
      t = returnOk [] (if key.length > 0 then absorbKey key (initFromParam (plainParam o key.length) false s)
        else initFromParam (plainParam o key.length) false s)) ∨
    (∃ ln p, i = .initParam ln p ∧ legalOutlen (paramDigestLength p).toNat = true ∧
      legalKeylen (paramKeyLength p).toNat = true ∧ reservedClear p = true ∧ t = returnOk [] (initFromParam p ln s)) ∨
    (∃ data, i = .update data ∧ s.phase = .ready ∧ t = returnOk [] (absorb data s)) ∨
    (∃ o, i = .final o ∧ s.phase = .ready ∧ o = s.digestLength ∧
      t = returnOk ((finishDigest o.toNat s).digest.toList.take o.toNat) (finishDigest o.toNat s)) := by
  cases i with
  | initPlain o =>
    simp only [exec, execInitPlain] at h
    split at h <;> rw [Host.Outcome.next.injEq] at h <;> subst h
    · next hl => exact .inr (.inl ⟨o, rfl, hl, rfl⟩)
    · exact .inl ⟨_, by decide, rfl⟩
  | initKeyed o key =>
    simp only [exec, execInitKeyed] at h
    split at h <;> rw [Host.Outcome.next.injEq] at h <;> subst h
    · next hl =>
      rw [Bool.and_eq_true] at hl
      exact .inr (.inr (.inl ⟨o, key, rfl, hl.1, hl.2, rfl⟩))
    · exact .inl ⟨_, by decide, rfl⟩
  | initParam ln p =>
    simp only [exec, execInitParam] at h
    split at h
    · rw [Host.Outcome.next.injEq] at h; subst h; exact .inl ⟨_, by decide, rfl⟩
    · next hl =>
      split at h <;> rw [Host.Outcome.next.injEq] at h <;> subst h
      · exact .inl ⟨_, by decide, rfl⟩
      · next hr =>
        simp only [Bool.not_eq_true', Bool.not_eq_false, Bool.and_eq_true] at hl hr
        exact .inr (.inr (.inr (.inl ⟨ln, p, rfl, hl.1, hl.2, hr, rfl⟩)))
  | update data =>
    simp only [exec, execUpdate] at h
    split at h <;> rw [Host.Outcome.next.injEq] at h <;> subst h
    · exact .inl ⟨_, by decide, rfl⟩
    · exact .inl ⟨_, by decide, rfl⟩
    · next hp => exact .inr (.inr (.inr (.inr (.inl ⟨data, rfl, hp, rfl⟩))))
  | final o =>
    simp only [exec, execFinal] at h
    split at h
    · rw [Host.Outcome.next.injEq] at h; subst h; exact .inl ⟨_, by decide, rfl⟩
    · rw [Host.Outcome.next.injEq] at h; subst h; exact .inl ⟨_, by decide, rfl⟩
    · next hp =>
      split at h <;> rw [Host.Outcome.next.injEq] at h <;> subst h
      · exact .inl ⟨_, by decide, rfl⟩
      · next ho => exact .inr (.inr (.inr (.inr (.inr ⟨o, rfl, hp, not_not.1 ho, rfl⟩))))

/-! ### What absorbing carries along -/

/-- A state with the elements that no absorbing reads or writes replaced. -/
def carrying (e : ErrorCode) (k : Vector Byte 128) (o : Option HostOutput) (s : State) : State :=
  { s with err := e, kscr := k, output := o }

theorem returnOk_eq_carrying (d : List Byte) (s : State) :
    returnOk d s = carrying .ok s.kscr (some (.response (statusOf s.phase .ok) d)) s := by
  apply State.ext <;> simp [carrying]

theorem fill_carrying (e : ErrorCode) (k : Vector Byte 128) (o : Option HostOutput) (c : List Byte) (s : State) :
    fill c (carrying e k o s) = carrying e k o (fill c s) := by
  apply State.ext <;> simp [carrying]

theorem compress_carrying (e : ErrorCode) (k : Vector Byte 128) (o : Option HostOutput) (n : Nat) (s : State) :
    compress n (carrying e k o s) = carrying e k o (compress n s) := by
  apply State.ext <;> simp [carrying]

theorem shiftBlock_carrying (e : ErrorCode) (k : Vector Byte 128) (o : Option HostOutput) (s : State) :
    shiftBlock (carrying e k o s) = carrying e k o (shiftBlock s) := by
  apply State.ext <;> simp [carrying]

theorem drain_carrying (e : ErrorCode) (k : Vector Byte 128) (o : Option HostOutput) (n : Nat) (s : State) :
    drain n (carrying e k o s) = carrying e k o (drain n s) := by
  induction n generalizing s with
  | zero => rfl
  | succ n ih =>
    simp only [drain]
    rw [compress_carrying, shiftBlock_carrying, ih, show (carrying e k o s).buflen = s.buflen by simp [carrying]]
    split <;> rfl

theorem absorbLoop_carrying (e : ErrorCode) (k : Vector Byte 128) (o : Option HostOutput) (n : Nat) (data : List Byte)
    (s : State) : absorbLoop n data (carrying e k o s) = carrying e k o (absorbLoop n data s) := by
  induction n generalizing data s with
  | zero => rfl
  | succ n ih =>
    simp only [absorbLoop, show (carrying e k o s).buflen = s.buflen by simp [carrying]]
    rw [fill_carrying, show ∀ u, (carrying e k o u).buflen = u.buflen by simp [carrying], drain_carrying, ih]
    split <;> rfl

/-- Absorbing carries `err`, KSCR and the response along. -/
theorem absorb_carrying (e : ErrorCode) (k : Vector Byte 128) (o : Option HostOutput) (data : List Byte) (s : State) :
    absorb data (carrying e k o s) = carrying e k o (absorb data s) :=
  absorbLoop_carrying ..

theorem carrying_carrying (e e' : ErrorCode) (k k' : Vector Byte 128) (o o' : Option HostOutput) (s : State) :
    carrying e k o (carrying e' k' o' s) = carrying e k o s := rfl

/-- `Absorbed` says nothing about what absorbing carries along. -/
theorem absorbed_carrying {h0 : Vector Word 8} {input : List Byte} {s : State} (hs : Absorbed h0 input s)
    (e : ErrorCode) (k : Vector Byte 128) (o : Option HostOutput) : Absorbed h0 input (carrying e k o s) :=
  ⟨hs.phase, hs.f0, hs.f1, hs.h, hs.t0, hs.t1, hs.ncomp, hs.buflen, hs.bufWf, hs.buf⟩

/-- What `raise` does, whole (R196). -/
theorem raise_eq (e : ErrorCode) (s : State) :
    raise e s = { s with
      kscr := Vector.replicate 128 0
      err := e
      output := some (.response (statusOf s.phase e) []) } := by
  apply State.ext <;> simp

/-- Absorbing two strings one after the other (R160). -/
theorem absorb_append {s : State} (hw : s.buf.wf) (hl : s.buflen ≤ 128) (a b : List Byte) :
    absorb (a ++ b) s = absorb b (absorb a s) := by
  obtain ⟨hw', hl'⟩ := absorb_keeps hw hl a
  rw [absorb_eq_foldl hw hl, absorb_eq_foldl hw' hl', absorb_eq_foldl hw hl, List.foldl_append]

/-- UPDATE in phase Ready, as one state. -/
theorem exec_update_ready {s : State} (hp : s.phase = .ready) (data : List Byte) :
    exec (.update data) s = .next (returnOk [] (absorb data s)) := by
  simp only [exec, execUpdate, hp]

theorem paramDigestLength_plainParam (o : Byte) (k : Nat) : paramDigestLength (plainParam o k) = o := by
  simp [paramDigestLength, plainParam]

/-- The empty digest register. -/
theorem digestRegister_zero (h : Vector Word 8) : digestRegister h 0 = Vector.replicate 64 0 := by
  apply Vector.ext
  intro i hi
  simp [digestRegister]

/-- `Safe` says nothing about `err`, the inbox and the output. -/
theorem safe_of_same {s t : State} (hs : Safe s) (hk : t.kscr = Vector.replicate 128 0)
    (h : t = { s with kscr := t.kscr, err := t.err, inbox := t.inbox, output := t.output }) : Safe t := by
  obtain ⟨a1, a2, a3, a4, a5, a6, a7, a8, a9, a10, a11⟩ := hs
  rw [h]
  refine ⟨a1, a2, a3, hk, a5, a6, a7, fun hp => ?_, fun hp => ?_, a10, a11⟩
  · obtain ⟨h0, input, hh⟩ := a8 hp
    exact ⟨h0, input, hh.phase, hh.f0, hh.f1, hh.h, hh.t0, hh.t1, hh.ncomp, hh.buflen, hh.bufWf, hh.buf⟩
  · obtain ⟨h0, input, hh⟩ := a9 hp
    exact ⟨h0, input, hh.phase, hh.f0, hh.f1, hh.h, hh.t0, hh.t1, hh.ncomp, hh.buflen, hh.buf⟩

/-- A state in phase Ready that has absorbed some bytes is safe when the rest of it is as an INIT leaves it. -/
theorem safe_of_absorbed {s : State} {h0 : Vector Word 8} {input : List Byte} (h : Absorbed h0 input s)
    (hk : s.kscr = Vector.replicate 128 0) (hd : 1 ≤ s.digestLength.toNat ∧ s.digestLength.toNat ≤ 64)
    (hdl : s.digestLen = 0) (hdg : s.digest = Vector.replicate 64 0) : Safe s where
  bufWf := h.bufWf
  buflen := by rw [h.buflen]; exact length_pendingBytes_le _
  tailZero := fun a ha => by rw [h.buf, List.getD_eq_default _ _ (by rw [← h.buflen]; exact ha)]
  kscr := hk
  digestLength := fun _ => hd
  flags := ⟨.inl h.f0, .inl h.f1⟩
  idle := fun hp => by rw [h.phase] at hp; cases hp
  ready := fun _ => ⟨h0, input, h⟩
  finished := fun hp => by rw [h.phase] at hp; cases hp
  digestLen := by rw [h.phase, hdl]; rfl
  digest := by rw [hdl, digestRegister_zero, hdg]

/-! ### The key path of INIT_KEYED -/

theorem keyBlock_toList {key : List Byte} (hk : key.length ≤ 128) :
    (keyBlock key).toList = key ++ zeros (128 - key.length) := by
  apply List.ext_getElem
  · simp; omega
  · intro j hj hj'
    simp only [keyBlock, Vector.getElem_toList, Vector.getElem_ofFn]
    by_cases hjk : j < key.length
    · rw [List.getElem_append_left hjk, List.getD_eq_getElem _ _ hjk]
    · rw [List.getElem_append_right (by omega), List.getD_eq_default _ _ (by omega)]
      simp [zeros]

/-- INIT_KEYED absorbs the key block and leaves KSCR zero; nothing is compressed (R149). -/
theorem absorbKey_eq (key : List Byte) (s : State) :
    absorbKey key s = carrying s.err (Vector.replicate 128 0) s.output (absorb (keyBlock key).toList s) := by
  have h : ({ s with kscr := keyBlock key } : State) = carrying s.err (keyBlock key) s.output s := rfl
  have hs := sameOutside_absorb (keyBlock key).toList s
  simp only [absorbKey]
  rw [h, absorb_carrying]
  simp only [carrying]

/-- The end of an INIT_KEYED with a key, as one state. -/
theorem returnOk_absorbKey (key : List Byte) (s : State) :
    returnOk [] (absorbKey key s) =
      carrying .ok (Vector.replicate 128 0) (some (.response (statusOf s.phase .ok) []))
        (absorb (keyBlock key).toList s) := by
  rw [absorbKey_eq, returnOk_eq_carrying]
  have h := (sameOutside_absorb (keyBlock key).toList s).phase
  simp [carrying, h]

/-! ### The end of FINAL -/

/-- The block FINAL compresses: the pending bytes, zero-padded (R165). -/
theorem final_block {h0 : Vector Word 8} {input : List Byte} {s : State} (hs : Absorbed h0 input s) :
    bufRead (padBuffer s).buf 0 128 = pendingBytes input ++ zeros (128 - (pendingBytes input).length) := by
  have hle := length_pendingBytes_le input
  have hl := hs.buflen
  apply List.ext_getElem
  · simp; omega
  · intro j hj hj'
    have hr := readByte_bufWrite hs.bufWf (j := s.buflen) (bytes := zeros (256 - s.buflen)) (by simp; omega) j
    simp only [bufRead, List.getElem_map, List.getElem_range, Nat.zero_add, padBuffer_buf, hr, length_zeros, getD_zeros]
    rw [length_bufRead] at hj
    by_cases hp : j < (pendingBytes input).length
    · rw [if_neg (by omega), hs.buf, List.getElem_append_left hp, List.getD_eq_getElem _ _ hp]
    · rw [if_pos (by omega), List.getElem_append_right (by omega)]
      simp [zeros]

end Sys2Proof.Machine
end

