-- ==== Sys2Proof/Laws/Encoding.lean ====
section
/-! SUPPORT. The command words of spec/30_encoding.md R72 to R76 as numbers, and the fields of a command word as
quotients of its number: what encoding and decoding need of each other. -/

namespace Sys2Proof

/-- A field of a word as a number. -/
theorem field_toNat (cw : CommandWord) (lo len : Nat) : (cw.extractLsb' lo len).toNat = cw.toNat / 2 ^ lo % 2 ^ len := by
  rw [BitVec.extractLsb'_toNat, Nat.shiftRight_eq_div_pow]

/-- The opcode as a number. -/
theorem opcodeField_eq (cw : CommandWord) : opcodeField cw = cw.toNat % 16 := by
  rw [opcodeField, field_toNat]
  omega

theorem field_eq_zero_iff (cw : CommandWord) (lo len : Nat) :
    cw.extractLsb' lo len = 0 ↔ cw.toNat / 2 ^ lo % 2 ^ len = 0 := by
  rw [← field_toNat, BitVec.toNat_eq]
  rfl

/-- A mask of `len` ones at bit `lo` selects the field there. -/
theorem and_mask_eq_zero_iff (cw : CommandWord) {lo len : Nat} {mask : CommandWord}
    (hmask : mask = BitVec.ofNat 32 ((2 ^ len - 1) * 2 ^ lo)) (hl : lo + len ≤ 32) :
    (cw &&& mask) = 0 ↔ cw.toNat / 2 ^ lo % 2 ^ len = 0 := by
  rw [← field_eq_zero_iff]
  subst hmask
  constructor
  · intro h
    ext i hi
    have := congrArg (fun x => x.getLsbD (lo + i)) h
    simp only [BitVec.getLsbD_and, BitVec.getLsbD_ofNat, Nat.testBit_mul_two_pow, Nat.testBit_two_pow_sub_one] at this
    simpa [hi, show lo + i < 32 by omega] using this
  · intro h
    apply BitVec.eq_of_getLsbD_eq
    intro i hi
    simp only [BitVec.getLsbD_and, BitVec.getLsbD_ofNat, Nat.testBit_mul_two_pow, Nat.testBit_two_pow_sub_one]
    by_cases hc : lo ≤ i ∧ i - lo < len
    · have := congrArg (fun x => x.getLsbD (i - lo)) h
      simp [hc.2, show lo + (i - lo) = i by omega] at this
      simp [this]
    · rw [not_and_or] at hc
      rcases hc with hc | hc <;> simp [hc]

/-- Setting an 8-bit field above what is set adds its value. -/
theorem or_byte_toNat {c : CommandWord} (hc : c.toNat < 256) (o : Byte) :
    (c ||| (o.setWidth 32 <<< 8)).toNat = c.toNat + 256 * o.toNat := by
  have ho := o.isLt
  rw [BitVec.toNat_or, BitVec.toNat_shiftLeft, BitVec.toNat_setWidth, Nat.lor_comm, Nat.shiftLeft_eq,
    Nat.mod_eq_of_lt (a := o.toNat) (by omega), Nat.mod_eq_of_lt (by omega), ← Nat.shiftLeft_eq,
    ← Nat.shiftLeft_add_eq_or_of_lt (by omega), Nat.shiftLeft_eq]
  omega

/-- Setting a length field at bit `k` above what is set adds its value. -/
theorem or_length_toNat {c : CommandWord} {k n : Nat} (hc : c.toNat < 2 ^ k) (hk : k < 32) (hn : n < 2 ^ (32 - k)) :
    (c ||| (BitVec.ofNat 32 n <<< k)).toNat = c.toNat + 2 ^ k * n := by
  have hp : 2 ^ k * 2 ^ (32 - k) = 2 ^ 32 := by rw [← pow_add]; congr 1; omega
  have hle : 2 ^ (32 - k) ≤ 2 ^ 32 := Nat.pow_le_pow_right (by omega) (by omega)
  have hmul : 2 ^ k * n < 2 ^ 32 := by rw [← hp]; exact Nat.mul_lt_mul_of_pos_left hn (by positivity)
  rw [BitVec.toNat_or, BitVec.toNat_shiftLeft, BitVec.toNat_ofNat, Nat.lor_comm, Nat.mod_eq_of_lt (hn.trans_le hle),
    Nat.shiftLeft_eq, Nat.mul_comm n, Nat.mod_eq_of_lt hmul, Nat.mul_comm, ← Nat.shiftLeft_eq,
    ← Nat.shiftLeft_add_eq_or_of_lt hc, Nat.shiftLeft_eq]
  ring

@[simp] theorem encodeWord_initPlain_toNat (o : Byte) : (encodeWord (.initPlain o)).toNat = 1 + 256 * o.toNat := by
  rw [encodeWord, or_byte_toNat (by decide)]; rfl

@[simp] theorem encodeWord_initKeyed_toNat (o : Byte) {key : List Byte} (hk : key.length ≤ 255) :
    (encodeWord (.initKeyed o key)).toNat = 2 + 256 * o.toNat + 65536 * key.length := by
  have ho := o.isLt
  have h := or_byte_toNat (c := 0x00000002#32) (by decide) o
  rw [encodeWord, or_length_toNat (by rw [h]; simp; omega) (by omega) (by omega), h]; rfl

@[simp] theorem encodeWord_initParam_toNat (ln : Bool) (p : Vector Byte 64) :
    (encodeWord (.initParam ln p)).toNat = 3 + 16 * ln.toNat := by
  cases ln <;> simp [encodeWord]

@[simp] theorem encodeWord_update_toNat {data : List Byte} (hd : data.length ≤ 16777215) :
    (encodeWord (.update data)).toNat = 4 + 256 * data.length := by
  rw [encodeWord, or_length_toNat (by decide) (by omega) (by omega)]; rfl

@[simp] theorem encodeWord_final_toNat (o : Byte) : (encodeWord (.final o)).toNat = 5 + 256 * o.toNat := by
  rw [encodeWord, or_byte_toNat (by decide)]; rfl

end Sys2Proof
end

