-- ==== Sys2Proof/Laws/PerInstr.lean ====
section
/-! SUPPORT. Facts about every command as syntax, one lemma per constructor. -/

namespace Sys2Proof.Laws.PayloadLengthFits

/-- The payload length a command's word announces (spec/30_encoding.md R71) is the length of its payload. -/
def Statement (i : Instr) : Prop :=
  i.wellFormed = true → payloadLength (encodeWord i) = some (encodePayload i).length

theorem initPlain (outlen : Byte) : Statement (.initPlain outlen) := by
  intro _
  have h : opcodeField (encodeWord (.initPlain outlen)) = 1 := by
    rw [opcodeField, field_toNat, encodeWord_initPlain_toNat]; omega
  simp [payloadLength, h, encodePayload]

theorem initKeyed (outlen : Byte) (key : List Byte) : Statement (.initKeyed outlen key) := by
  intro hw
  have hk : key.length ≤ 255 := by simpa [Instr.wellFormed] using hw
  have ho := outlen.isLt
  have h : opcodeField (encodeWord (.initKeyed outlen key)) = 2 := by
    rw [opcodeField, field_toNat, encodeWord_initKeyed_toNat outlen hk]; omega
  have hl : (keylenField (encodeWord (.initKeyed outlen key))).toNat = key.length := by
    rw [keylenField, field_toNat, encodeWord_initKeyed_toNat outlen hk]; omega
  simp [payloadLength, h, hl, encodePayload]

theorem initParam (lastNode : Bool) (param : Vector Byte 64) : Statement (.initParam lastNode param) := by
  intro _
  have h : opcodeField (encodeWord (.initParam lastNode param)) = 3 := by
    rw [opcodeField, field_toNat, encodeWord_initParam_toNat]; cases lastNode <;> rfl
  simp [payloadLength, h, encodePayload]

theorem update (data : List Byte) : Statement (.update data) := by
  intro hw
  have hd : data.length ≤ 16777215 := by simpa [Instr.wellFormed] using hw
  have h : opcodeField (encodeWord (.update data)) = 4 := by
    rw [opcodeField, field_toNat, encodeWord_update_toNat hd]; omega
  have hl : (lenField (encodeWord (.update data))).toNat = data.length := by
    rw [lenField, field_toNat, encodeWord_update_toNat hd]; omega
  simp [payloadLength, h, hl, encodePayload]

theorem final (outlen : Byte) : Statement (.final outlen) := by
  intro _
  have h : opcodeField (encodeWord (.final outlen)) = 5 := by
    rw [opcodeField, field_toNat, encodeWord_final_toNat]; omega
  simp [payloadLength, h, encodePayload]

end Sys2Proof.Laws.PayloadLengthFits
end

