-- ==== Sys2Proof/Laws/Pseudo.lean ====
section
/-! SUPPORT. The chunks of a long byte string (spec/30_encoding.md R93): together they are the string, and none is
longer than the size asked for; and what UPDATE_LONG and HASH send. -/

namespace Sys2Proof.Machine

theorem flatten_chunksOf {size : Nat} (hsize : 0 < size) {n : Nat} {data : List Byte} (hn : data.length ≤ n) :
    (chunksOf size n data).flatten = data := by
  induction n generalizing data with
  | zero => simp [List.eq_nil_of_length_eq_zero (Nat.le_zero.1 hn), chunksOf]
  | succ n ih =>
    cases data with
    | nil => simp [chunksOf]
    | cons b data =>
      rw [chunksOf, List.flatten_cons, ih (by simp at hn ⊢; omega), List.take_append_drop]
      simp

theorem length_of_mem_chunksOf {size n : Nat} {data c : List Byte} (hc : c ∈ chunksOf size n data) : c.length ≤ size := by
  induction n generalizing data with
  | zero => simp [chunksOf] at hc
  | succ n ih =>
    cases data with
    | nil => simp [chunksOf] at hc
    | cons b data =>
      rw [chunksOf] at hc
      · rcases List.mem_cons.1 hc with rfl | hc
        · simp
        · exact ih hc
      · simp

/-- The chunks of a string are the string, each fits an UPDATE, and only the empty string has none. -/
theorem updateChunks_spec (data : List Byte) :
    (updateChunks data).flatten = data ∧ (∀ c ∈ updateChunks data, c.length ≤ Config.maxUpdateBytes) ∧
      (updateChunks data = [] ↔ data = []) := by
  have hflat : (updateChunks data).flatten = data := flatten_chunksOf (by decide) (Nat.le_refl _)
  refine ⟨hflat, fun c hc => length_of_mem_chunksOf hc, fun h => by simpa [h] using hflat.symm, ?_⟩
  rintro rfl
  rfl

/-- UPDATE_LONG is one or more UPDATEs, each of which fits its field, and their bytes are the string (R93). -/
theorem updateLong_spec (data : List Byte) :
    ∃ chunks : List (List Byte), chunks ≠ [] ∧ updateLong data = chunks.map .update ∧ chunks.flatten = data ∧
      ∀ c ∈ chunks, c.length ≤ Config.maxUpdateBytes := by
  obtain ⟨hflat, hlen, hnil⟩ := updateChunks_spec data
  by_cases h : data = []
  · exact ⟨[[]], by simp, by simp [updateLong, h], by simp [h], by simp⟩
  · exact ⟨updateChunks data, fun hc => h (hnil.1 hc), by simp [updateLong, h], hflat, hlen⟩

end Sys2Proof.Machine
end

