-- ==== Sys2Proof/Tests/Slice0.lean ====
section
/-! SUPPORT. The model's own tests. Expected values come from spec/95_test_vectors.md (named V-… and P… below) or from
the encoding tables of spec/30_encoding.md; the last part shows for each statement of
Certificates/Slice0/Obligations.lean that something meets its hypotheses. -/

namespace Sys2Proof.Tests

open Sys2Proof Sys2Proof.Machine

set_option maxRecDepth 100000

/-! ### Helpers -/

/-- The outcome is a next state, of which `p` holds. -/
def nextIs (o : Host.Outcome State Fault Refusal) (p : State → Bool) : Bool :=
  match o with
  | .next t => p t
  | .fault _ => false
  | .refused _ => false

/-- The bytes `a, a+1, ..., b-1`, each modulo 256: `range(a,b)` of the spec's vectors. -/
def bytesFrom (a b : Nat) : List Byte := (List.range (b - a)).map fun k => BitVec.ofNat 8 (a + k)

/-- The state V-I3 gives for `INIT_PLAIN 64`, written out. -/
def started : State :=
  { State.reset with
    h := #v[0x6a09e667f2bdc948#64, 0xbb67ae8584caa73b#64, 0x3c6ef372fe94f82b#64, 0xa54ff53a5f1d36f1#64,
      0x510e527fade682d1#64, 0x9b05688c2b3e6c1f#64, 0x1f83d9abfb41bd6b#64, 0x5be0cd19137e2179#64]
    phase := .ready
    digestLength := 64 }

/-- `started` after UPDATE "abc" (P1). -/
def holdingAbc : State := { started with buf := [(0, 0x61), (1, 0x62), (2, 0x63)], buflen := 3 }

/-- A finalized engine. -/
def finalized : State := { State.reset with phase := .finalized, digestLength := 32 }

/-- The parameter block of P5. -/
def treeParam : ParamFields :=
  { digestLength := 32, keyLength := 0, fanout := 2, depth := 2, leafLength := 4096, nodeOffset := 1, nodeDepth := 0,
    innerLength := 64, reserved := Vector.replicate 14 0, salt := Vector.replicate 16 0x11,
    personal := #v[0x70, 0x65, 0x72, 0x73, 0x6f, 0x6e, 0x61, 0x6c, 0x69, 0x7a, 0x61, 0x74, 0x69, 0x6f, 0x6e, 0x21] }

/-! ### WellFormed: an ill-formed term for each check, which it refuses -/

/-- R73: KEYLEN has 8 bits. -/
theorem test_wellFormed_refuses_key_of_256 : (Instr.initKeyed 32 (List.replicate 256 0)).wellFormed = false := by decide

/-- R75: LEN has 24 bits. -/
theorem test_wellFormed_refuses_update_of_2_24 : (Instr.update (List.replicate 16777216 0)).wellFormed = false := by
  simp only [Instr.wellFormed, List.length_replicate]
  decide

/-! ### Decoding: words written out from R72 to R76, and the vectors V-D -/

/-- R72: 0000 0000 0000 0000 oooo oooo 0000 0001. -/
theorem test_decode_initPlain : decode 0b00000000000000000010000000000001#32 [] = some (.initPlain 32) := by decide

/-- R73: 0000 0000 kkkk kkkk oooo oooo 0000 0010. -/
theorem test_decode_initKeyed :
    decode 0b00000000000000100100000000000010#32 [0xAA, 0xBB] = some (.initKeyed 64 [0xAA, 0xBB]) := by decide

/-- R74: 0000 0000 0000 0000 0000 0000 000l 0011. -/
theorem test_decode_initParam :
    decode 0b00000000000000000000000000010011#32 (List.replicate 64 7) = some (.initParam true (Vector.replicate 64 7)) ∧
    decode 0b00000000000000000000000000000011#32 (List.replicate 64 7) = some (.initParam false (Vector.replicate 64 7)) := by
  decide

/-- R75: nnnn nnnn nnnn nnnn nnnn nnnn 0000 0100. -/
theorem test_decode_update :
    decode 0b00000000000000000000001100000100#32 [0x61, 0x62, 0x63] = some (.update [0x61, 0x62, 0x63]) := by decide

/-- R76: 0000 0000 0000 0000 oooo oooo 0000 0101. -/
theorem test_decode_final : decode 0b00000000000000000001000000000101#32 [] = some (.final 16) := by decide

/-- V-D2, V-D3, V-D6, V-D10, V-D14, V-D16: a reserved bit set. -/
theorem test_decode_reserved_bits :
    decode 0x00004011 [] = none ∧ decode 0x00014001 [] = none ∧ decode 0x01004002 [] = none ∧
    decode 0x00000023 (List.replicate 64 0) = none ∧ decode 0x00000014 [] = none ∧ decode 0x00014005 [] = none := by
  decide

/-- V-D5, V-D9, V-D12, V-D17: a payload of the wrong length. -/
theorem test_decode_payload_length :
    decode 0x00404002 (List.replicate 63 0) = none ∧ decode 0x00000013 (List.replicate 63 0) = none ∧
    decode 0x00000304 [0, 0] = none ∧ decode 0x00004005 [0] = none := by decide

/-- V-D18, V-D19, V-E7: reserved opcodes. -/
theorem test_decode_reserved_opcodes :
    decode 0x00000000 [] = none ∧ decode 0x00000006 [] = none ∧ decode 0x0000000F [] = none := by decide

/-- V-D7, V-D15: values a field holds and the command does not accept still decode (R77). -/
theorem test_decode_unaccepted_values :
    decode 0x00FF4002 (List.replicate 255 0) = some (.initKeyed 64 (List.replicate 255 0)) ∧
    decode 0x00000005 [] = some (.final 0) := by decide

/-- R94: the words of R94's table, by the encoder. -/
theorem test_encodeWord :
    encodeWord (.initPlain 64) = 0x00004001 ∧ encodeWord (.initKeyed 64 (bytesFrom 0 64)) = 0x00404002 ∧
    encodeWord (.initParam true (Vector.replicate 64 0)) = 0x00000013 ∧
    encodeWord (.update (bytesFrom 0 128)) = 0x00008004 ∧ encodeWord (.final 16) = 0x00001005 := by decide

/-- P1 "bytes:": the transaction of UPDATE "abc" on a byte transport, read back with what follows it. -/
theorem test_transaction_bytes :
    (encode (.update [0x61, 0x62, 0x63])).bytes = [0x04, 0x03, 0x00, 0x00, 0x61, 0x62, 0x63] ∧
    decodeBytes [0x04, 0x03, 0x00, 0x00, 0x61, 0x62, 0x63, 0x05, 0x40] =
      some (.update [0x61, 0x62, 0x63], [0x05, 0x40]) := by decide

/-- The table's numbering: bit 32 is the lowest bit of the first payload byte, and bits from `nbits` up are 0. -/
theorem test_decodeTableWord :
    decodeTableWord 32 0x00004001 = some (.initPlain 64) ∧ decodeTableWord 32 0x00000304 = some (.update [0, 0, 0]) ∧
    decodeTableWord 48 0xBBAA00000204 = some (.update [0xAA, 0xBB]) ∧ decodeTableWord 32 0x00000006 = none := by decide

/-- After reset, `step` runs the word placed as the next instruction (V-I3). -/
theorem test_step_runs_fetch_word :
    nextIs (step (State.reset.withFetchWord 32 0x00004001)) (fun t =>
      t.h[0] == 0x6a09e667f2bdc948 && t.phase == .ready && t.output == some (.response 0x10 []) && t.inbox == []) = true := by
  decide

/-! ### Codec, counter, rotation, G (V-W, V-T, V-R, V-G) -/

/-- V-W2, V-W3. -/
theorem test_codec :
    load64 [0, 1, 2, 3, 4, 5, 6, 7] = 0x0706050403020100 ∧
    store64 0x0123456789abcdef = [0xef, 0xcd, 0xab, 0x89, 0x67, 0x45, 0x23, 0x01] := by decide

/-- V-T3, V-T6: the carry into `t[1]`, and the wrap. -/
theorem test_counter_carry :
    ((incrementCounter 128 { State.reset with t0 := 0xffffffffffffff80 }).t0 = 0 ∧
      (incrementCounter 128 { State.reset with t0 := 0xffffffffffffff80 }).t1 = 1) ∧
    (incrementCounter 1 { State.reset with t0 := mask64, t1 := mask64 }).t0 = 0 ∧
      (incrementCounter 1 { State.reset with t0 := mask64, t1 := mask64 }).t1 = 0 := by decide

/-- V-R2, V-R4. -/
theorem test_rotr64 :
    rotr64 0x0123456789abcdef 24 = 0xabcdef0123456789 ∧ rotr64 0x0123456789abcdef 63 = 0x02468acf13579bde := by decide

/-- V-G2, V-G3. -/
theorem test_mixG :
    mixG ⟨1, 2, 3, 4⟩ 5 6 =
      ⟨0x0000010000000c0e, 0x181c021802181806, 0x0c0e000c010c0003, 0x0c0e0000010c0000⟩ ∧
    mixG ⟨mask64, mask64, mask64, mask64⟩ mask64 mask64 =
      ⟨0x000000fffffffdfc, 0xfbf801fbfe0403fd, 0xfdfc000200fdfffe, 0xfdfc000000fdffff⟩ := by decide

/-- R80, P5: the bytes of a parameter block at the edges of its fields. -/
theorem test_param_block :
    treeParam.block[0] = 0x20 ∧ treeParam.block[5] = 0x10 ∧ treeParam.block[8] = 1 ∧ treeParam.block[17] = 0x40 ∧
    treeParam.block[18] = 0 ∧ treeParam.block[32] = 0x11 ∧ treeParam.block[48] = 0x70 ∧ treeParam.block[63] = 0x21 := by
  decide

/-! ### The commands, one step each -/

/-- V-I3. -/
theorem test_initPlain :
    nextIs (exec (.initPlain 64) finalized) (fun t =>
      t.h[0] == 0x6a09e667f2bdc948 && t.h[7] == 0x5be0cd19137e2179 && t.phase == .ready && t.digestLength == 64 &&
        statusWord t == 0x10) = true := by decide

/-- V-I6. -/
theorem test_initPlain_65 :
    nextIs (exec (.initPlain 65) State.reset) (fun t =>
      t == { State.reset with err := .invalidLength, output := some (.response 0x01 []) }) = true := by decide

/-- V-I7. -/
theorem test_initKeyed :
    nextIs (exec (.initKeyed 64 (bytesFrom 0 64)) State.reset) (fun t =>
      t.h[0] == 0x6a09e667f2bd8948 && t.buflen == 128 && readByte t.buf 63 == 0x3f && readByte t.buf 64 == 0 &&
        t.ncomp == 0 && t.kscr == Vector.replicate 128 0) = true := by decide

/-- V-I11, P4 step 10: in phase Finalized, a key that is too long. -/
theorem test_initKeyed_long_key :
    nextIs (exec (.initKeyed 16 (List.replicate 65 0xff)) finalized) (fun t =>
      t == { finalized with err := .invalidLength, output := some (.response 0x21 []) }) = true := by decide

/-- V-I12, P5. -/
theorem test_initParam :
    nextIs (exec (.initParam true treeParam.block) State.reset) (fun t =>
      t.h[0] == 0x6a09f667f1bec928 && t.h[1] == 0xbb67ae8584caa73a && t.h[6] == 0x73e2b7c48833d81b && t.lastNode &&
        configWord t == 0x120) = true := by decide

/-- V-I13 and V-I15: a reserved byte, and the priority of R197. -/
theorem test_initParam_errors :
    nextIs (exec (.initParam false ((plainParam 32 0).set 20 1)) State.reset) (fun t => statusWord t == 0x03) = true ∧
    nextIs (exec (.initParam false ((plainParam 65 0).set 20 1)) State.reset) (fun t => statusWord t == 0x01) = true := by
  decide

/-- P1 and R155: the bytes are appended behind those held. -/
theorem test_update :
    nextIs (exec (.update [0x62, 0x63]) { started with buf := [(0, 0x61)], buflen := 1 }) (fun t =>
      t == { holdingAbc with output := some (.response 0x10 []) }) = true := by decide

/-- V-U22, V-C3: from a held block, one more byte. -/
theorem test_update_compresses_held_block :
    nextIs (exec (.update [0x80])
        { started with
          h := #v[0x6a09e667f2bdc928#64, iv[1], iv[2], iv[3], iv[4], iv[5], iv[6], iv[7]]
          digestLength := 32
          buf := bufWrite [] 0 (bytesFrom 0 128)
          buflen := 128 }) (fun t =>
      t.h[0] == 0x12dac38388ccdc21 && t.h[7] == 0x3d8f34c505e0e297 && t.buf == [(0, 0x80)] && t.buflen == 1 &&
        t.t0 == 128 && t.t1 == 0 && t.ncomp == 1) = true := by decide

/-- V-C1, V-K2: "abc". -/
theorem test_final :
    nextIs (exec (.final 64) holdingAbc) (fun t =>
      t.h[0] == 0x0d4d1c983fa580ba && t.h[7] == 0x239900d4ed8623b9 && t.t0 == 3 && t.digest[0] == 0xba &&
        t.digest[63] == 0x23 && t.buf == [] && statusWord t == 0x20) = true := by decide

/-- V-E3 and V-E5: the phase is checked before the length. -/
theorem test_final_phase_before_length :
    nextIs (exec (.final 0) State.reset) (fun t => statusWord t == 0x04) = true ∧
    nextIs (exec (.final 33) finalized) (fun t => statusWord t == 0x22) = true := by decide

/-- V-E8: a reserved opcode in phase Finalized. -/
theorem test_illegal_command :
    nextIs (step { finalized with inbox := [.command ⟨0x00000006, []⟩] }) (fun t =>
      t == { finalized with err := .illegalCommand, output := some (.response 0x25 []) }) = true := by decide

/-! ### Pseudo-commands -/

/-- R93 with V-E1 and V-E4: UPDATE_LONG of an empty string is refused where an UPDATE is; R92: HASH sends none. -/
theorem test_updateLong_empty :
    nextIs (runCommands (updateLong []) State.reset) (fun t => statusWord t == 0x04) = true ∧
    nextIs (runCommands (updateLong []) finalized) (fun t => statusWord t == 0x22) = true ∧
    hashCommands 64 [] [] = [.initPlain 64, .final 64] := by decide

/-! ### Observation and the assembler -/

/-- V-O1, V-O2, V-O10, V-O11 on the elements they read. -/
theorem test_observe :
    let s := { started with
      phase := .finalized
      digestLen := 64
      digest := ((((Vector.replicate 64 0).set 62 0x99).set 63 0x23).set 8 0x6a).set 1 0x80 }
    observe s 0x00 4 = 0x20 ∧ observe s 0x04 4 = 0x40 ∧ observe s 0x1C 4 = 0x40 ∧
    observe s 0x41 8 = 0x6a00000000000080 ∧ observe s 0x7E 4 = 0x2399 ∧ observe s 0x28 8 = 0 := by decide

/-- R89: a line of each kind of operand. -/
theorem test_parseLine :
    (parseLine "UPDATE \"abc\"".toList).bind assemble = some (.update [0x61, 0x62, 0x63]) ∧
    (parseLine "INIT_KEYED 0x10, hex:00fF".toList).bind assemble = some (.initKeyed 16 [0x00, 0xff]) ∧
    (parseLine "INIT_PARAM range(250,314), last_node=1".toList).bind assemble =
      some (.initParam true (Vector.ofFn fun k => BitVec.ofNat 8 (250 + k.val))) ∧
    (parseLine "INIT_PARAM hex:00, last_node=1".toList).bind assemble = none := by decide

/-- R89, P1: the listing of a transaction. -/
theorem test_listing : listing (encode (.update [0x61, 0x62, 0x63])) = "cw=0x00000304 payload=616263".toList := by decide

/-! ### Something meets the hypotheses of every statement -/

/-- An engine just initialised, which has absorbed nothing. -/
def fresh : State := initFromParam (plainParam 64 0) false State.reset

/-- The engine after reset with one thing issued. -/
def issued (e : HostEvent) : State := { State.reset with inbox := [e] }

theorem fresh_absorbed : Absorbed (initialChain (plainParam 64 0)) [] fresh := absorbed_initFromParam _ _ _

theorem witness_ResetSetsEveryElement :
    (issued .reset).inbox = .reset :: [] ∧ ∃ t, (issued (.resetDuring ⟨1, []⟩)).inbox = .resetDuring t :: [] :=
  ⟨rfl, _, rfl⟩

theorem witness_StepRunsTheDecodedCommand :
    (issued (.command ⟨0x00004001, []⟩)).inbox = .command ⟨0x00004001, []⟩ :: [] ∧
    decode 0x00004001 [] = some (.initPlain 64) := ⟨rfl, by decide⟩

theorem witness_IllegalExactlyByTheThreeCauses :
    (issued (.command ⟨0x00000014, []⟩)).inbox = .command ⟨0x00000014, []⟩ :: [] ∧ decode 0x00000014 [] = none :=
  ⟨rfl, by decide⟩

theorem witness_IllegalTransactionOnlySetsErr :
    (issued (.command ⟨0x00000006, []⟩)).inbox = .command ⟨0x00000006, []⟩ :: [] ∧ decode 0x00000006 [] = none :=
  ⟨rfl, by decide⟩

theorem witness_NothingIssuedHoldsTheState : State.reset.inbox = [] := rfl

theorem witness_EventsAreTakenInIssueOrder :
    (issued (.write 0 [])).inbox = .write 0 [] :: [] ∧ step (issued (.write 0 [])) = .next State.reset := ⟨rfl, rfl⟩

theorem witness_EveryStepAnswersNext :
    (issued (.command ⟨0x00004001, []⟩)).inbox = .command ⟨0x00004001, []⟩ :: [] := rfl

/-- A FINAL that fails, and one that succeeds. -/
theorem witness_ResponseIsStatusAndDigest :
    (decode 0x00004005 [] = some (.final 64) ∧ ∃ u, step (issued (.command ⟨0x00004005, []⟩)) = .next u ∧
      u.err = .notInitialized) ∧
    ∃ u, step { holdingAbc with inbox := [.command ⟨0x00004005, []⟩] } = .next u ∧ u.err = .ok :=
  ⟨⟨by decide, _, rfl, rfl⟩, _, rfl, rfl⟩

/-- The longest key and the longest UPDATE. -/
theorem witness_DecodeInvertsEncode :
    (Instr.initKeyed 255 (List.replicate 255 0)).wellFormed = true ∧
    (Instr.update (List.replicate 16777215 0)).wellFormed = true ∧ (Instr.final 0).wellFormed = true := by
  refine ⟨by decide, ?_, rfl⟩
  simp only [Instr.wellFormed, List.length_replicate]
  decide

theorem witness_EncodeInvertsDecode : decode 0x00000304 [1, 2, 3] = some (.update [1, 2, 3]) := by decide

theorem witness_ByteStreamIsSplitAtTransactions : (Instr.initKeyed 1 [5]).wellFormed = true := by decide

theorem witness_AssemblerSetsTheLengths :
    (255 ≤ 255 ∧ (ByteLiteral.hex (List.replicate 255 0)).bytes.length ≤ 255) ∧
    (ByteLiteral.range 0 16777215).bytes.length ≤ 16777215 ∧
    ((ByteLiteral.range 0 63).bytes.length ≠ 64 ∧ (ByteLiteral.range 0 65).bytes.length ≠ 64) ∧ 0 < 1 - 0 := by
  refine ⟨by decide, ?_, by decide, by decide⟩
  simp only [ByteLiteral.bytes, List.length_map, List.length_range]
  omega

theorem witness_CodecIsInverse : (bytesFrom 0 8).length = 8 := by decide

theorem witness_MessageWordsAreLittleEndian : (bytesFrom 0 128).length = 128 := by decide

theorem witness_SerializeByteOrder : (0 : Nat) ≤ 64 ∧ 63 ≤ 64 ∧ 64 ≤ 64 := by decide

theorem witness_CounterAddsModulo128Bits : (0 : Nat) ≤ 128 ∧ 128 ≤ 128 := by decide

theorem witness_ParamBlockWordView : treeParam.reserved = Vector.replicate 14 0 := rfl

theorem witness_PlainBlockChainingValue : 255 ≤ 255 ∧ (1 : Fin 8) ≠ 0 ∧ (7 : Fin 8) ≠ 0 := by decide

theorem witness_HalfRoundsRunInAnyOrder :
    [(3 : Fin 8), 1, 0, 2].Perm [0, 1, 2, 3] ∧ [(7 : Fin 8), 6, 5, 4].Perm [4, 5, 6, 7] := by decide

/-- Two states that differ outside what a compression reads. -/
theorem witness_CompressIsPure :
    let t : State := { fresh with err := .illegalCommand, lastNode := true, buf := writeByte fresh.buf 128 1 }
    fresh.h = t.h ∧ fresh.t0 = t.t0 ∧ fresh.t1 = t.t1 ∧ fresh.f0 = t.f0 ∧ fresh.f1 = t.f1 ∧
      ∀ a, a < 128 → readByte fresh.buf a = readByte t.buf a := by
  refine ⟨rfl, rfl, rfl, rfl, rfl, fun a ha => ?_⟩
  rw [readByte_writeByte (by simp [fresh, Memory.wf]), if_neg (by omega)]

/-- Both ends of the legal range, and both neighbours outside. -/
theorem witness_InitPlainResult :
    (1 ≤ (1 : Byte).toNat ∧ (1 : Byte).toNat ≤ 64) ∧ (1 ≤ (64 : Byte).toNat ∧ (64 : Byte).toNat ≤ 64) ∧
    ¬ (1 ≤ (0 : Byte).toNat ∧ (0 : Byte).toNat ≤ 64) ∧ ¬ (1 ≤ (65 : Byte).toNat ∧ (65 : Byte).toNat ≤ 64) := by decide

theorem witness_InitKeyedResult :
    (1 ≤ (64 : Byte).toNat ∧ (64 : Byte).toNat ≤ 64 ∧ (List.replicate 64 (0 : Byte)).length ≤ 64) ∧
    (1 ≤ (1 : Byte).toNat ∧ (1 : Byte).toNat ≤ 64 ∧ ([] : List Byte).length ≤ 64) ∧
    ¬ (1 ≤ (64 : Byte).toNat ∧ (64 : Byte).toNat ≤ 64 ∧ (List.replicate 65 (0 : Byte)).length ≤ 64) ∧
    ¬ (1 ≤ (0 : Byte).toNat ∧ (0 : Byte).toNat ≤ 64 ∧ ([] : List Byte).length ≤ 64) := by decide

/-- A block that passes, with the bytes beside the reserved ones set. -/
theorem witness_InitParamResult_ok :
    ∃ p : Vector Byte 64, p[17] = 1 ∧ p[32] = 1 ∧ (1 ≤ p[0].toNat ∧ p[0].toNat ≤ 64 ∧ p[1].toNat ≤ 64) ∧
      ∀ k : Fin 64, 18 ≤ k.val → k.val < 32 → p[k] = 0 :=
  ⟨((plainParam 64 64).set 17 1).set 32 1, by decide⟩

/-- Each illegal length. -/
theorem witness_InitParamResult_length :
    (∃ p : Vector Byte 64, p[0] = 0 ∧ ¬ (1 ≤ p[0].toNat ∧ p[0].toNat ≤ 64 ∧ p[1].toNat ≤ 64)) ∧
    (∃ p : Vector Byte 64, p[0] = 65 ∧ ¬ (1 ≤ p[0].toNat ∧ p[0].toNat ≤ 64 ∧ p[1].toNat ≤ 64)) ∧
    ∃ p : Vector Byte 64, p[1] = 65 ∧ ¬ (1 ≤ p[0].toNat ∧ p[0].toNat ≤ 64 ∧ p[1].toNat ≤ 64) :=
  ⟨⟨plainParam 0 0, by decide⟩, ⟨plainParam 65 0, by decide⟩, plainParam 32 65, by decide⟩

/-- A reserved byte at each end of the field. -/
theorem witness_InitParamResult_reserved :
    (∃ p : Vector Byte 64, p[18] = 1 ∧ (1 ≤ p[0].toNat ∧ p[0].toNat ≤ 64 ∧ p[1].toNat ≤ 64) ∧
      ¬ ∀ k : Fin 64, 18 ≤ k.val → k.val < 32 → p[k] = 0) ∧
    ∃ p : Vector Byte 64, p[31] = 1 ∧ (1 ≤ p[0].toNat ∧ p[0].toNat ≤ 64 ∧ p[1].toNat ≤ 64) ∧
      ¬ ∀ k : Fin 64, 18 ≤ k.val → k.val < 32 → p[k] = 0 :=
  ⟨⟨(plainParam 1 0).set 18 1, by decide⟩, (plainParam 1 0).set 31 1, by decide⟩

/-- The same command from phase Idle and from phase Finalized, for each INIT. -/
theorem witness_InitDiscardsTheOldComputation :
    ∀ i ∈ [Instr.initPlain 64, .initKeyed 64 [1], .initParam true (plainParam 64 0)],
      i.isInit = true ∧ State.reset.inbox = finalized.inbox ∧ State.reset.kscr = finalized.kscr ∧
      (∃ t, exec i State.reset = .next t ∧ t.err = .ok) ∧ ∃ t, exec i finalized = .next t := by
  intro i hi
  simp only [List.mem_cons, List.not_mem_nil, or_false] at hi
  rcases hi with rfl | rfl | rfl <;> exact ⟨rfl, rfl, rfl, ⟨_, rfl, rfl⟩, _, rfl⟩

theorem witness_UpdateResult :
    Absorbed (initialChain (plainParam 64 0)) [] fresh ∧ State.reset.phase = .idle ∧ finalized.phase = .finalized :=
  ⟨fresh_absorbed, rfl, rfl⟩

theorem witness_UpdateIsByteSerial :
    fresh.phase = .ready ∧ fresh.buf.wf ∧ fresh.buflen ≤ 128 ∧
    (let s := fill (bytesFrom 1 129) fresh;
      s.phase = .ready ∧ s.buf.wf ∧ s.buflen ≤ 128) := by
  refine ⟨rfl, by simp [fresh, Memory.wf], by simp [fresh], rfl, ?_, ?_⟩
  · rw [fill_buf]
    exact bufWrite_wf (by simp [fresh, Memory.wf]) (by simp [fresh, bytesFrom])
  · simp [fresh, bytesFrom]

theorem witness_EmptyUpdateChangesOnlyErr : fresh.phase = .ready := rfl

theorem witness_TwoUpdatesAreOne :
    fresh.phase = .ready ∧ fresh.buf.wf ∧ fresh.buflen ≤ 128 ∧ ∃ t, exec (.update [1]) fresh = .next t :=
  ⟨rfl, by simp [fresh, Memory.wf], by simp [fresh], _, exec_update_ready rfl _⟩

/-- Nothing absorbed, exactly one block, and one byte more. (The bytes of the UPDATE are free.) -/
theorem witness_AbsorbedBytesDetermineTheCounts :
    (∃ s, Absorbed (initialChain (plainParam 64 0)) [] s) ∧
    (∃ s, Absorbed (initialChain (plainParam 64 0)) ([] ++ bytesFrom 0 128) s) ∧
    ∃ s, Absorbed (initialChain (plainParam 64 0)) ([] ++ bytesFrom 0 129) s :=
  ⟨⟨_, fresh_absorbed⟩, ⟨_, absorbed_absorb fresh_absorbed _⟩, ⟨_, absorbed_absorb fresh_absorbed _⟩⟩

theorem witness_FinalResult :
    (Absorbed (initialChain (plainParam 64 0)) [] fresh ∧ 64 = fresh.digestLength) ∧ State.reset.phase = .idle ∧
    finalized.phase = .finalized ∧ (fresh.phase = .ready ∧ 63 ≠ fresh.digestLength ∧ 65 ≠ fresh.digestLength) :=
  ⟨⟨fresh_absorbed, by decide⟩, rfl, rfl, rfl, by decide, by decide⟩

theorem witness_FinalCountsTheMessage :
    ∃ s, Absorbed (initialChain (plainParam 64 0)) ([] ++ bytesFrom 0 129) s :=
  ⟨_, absorbed_absorb fresh_absorbed _⟩

/-- A command that fails, and a transaction that does not decode. -/
theorem witness_ErrorsArePrecise :
    (∃ t, step (issued (.command ⟨0x00004005, []⟩)) = .next t ∧ t.err ≠ .ok) ∧
    ∃ t, step (issued (.command ⟨0x00000006, []⟩)) = .next t ∧ t.err ≠ .ok :=
  ⟨⟨_, rfl, by decide⟩, _, rfl, by decide⟩

theorem witness_ErrorCodesFollowThePriority :
    (issued (.command ⟨0x00000005, []⟩)).inbox = .command ⟨0x00000005, []⟩ :: [] := rfl

/-- A reset, an INIT and a FINAL that succeed, a FINAL that fails, and nothing. -/
theorem witness_PhaseTransitions :
    ((issued .reset).resetNext = true ∧ step (issued .reset) = .next State.reset) ∧
    (∃ t, step (issued (.command ⟨0x00004001, []⟩)) = .next t ∧ t.err = .ok) ∧
    (∃ t, step { holdingAbc with inbox := [.command ⟨0x00004005, []⟩] } = .next t ∧ t.err = .ok) ∧
    (∃ t, step (issued (.command ⟨0x00004005, []⟩)) = .next t ∧ t.err ≠ .ok) ∧
    step State.reset = .next State.reset :=
  ⟨⟨rfl, rfl⟩, ⟨_, rfl, rfl⟩, ⟨_, rfl, rfl⟩, ⟨_, rfl, by decide⟩, rfl⟩

/-- A FINAL, an INIT of each kind and an UPDATE that succeed, a FINAL that fails, and a read. -/
theorem witness_DigestRegisterWriters :
    (∃ s t, s.resetNext = false ∧ s.nextCommand = some (.final 64) ∧ step s = .next t ∧ t.err = .ok) ∧
    (∃ s t, s.resetNext = false ∧ s.nextCommand = some (.initPlain 64) ∧ step s = .next t ∧ t.err = .ok) ∧
    (∃ s t, s.resetNext = false ∧ s.nextCommand = some (.update [1]) ∧ step s = .next t ∧ t.err = .ok) ∧
    (∃ s t, s.resetNext = false ∧ s.nextCommand = some (.final 64) ∧ step s = .next t ∧ t.err ≠ .ok) ∧
    ∃ s t, s.resetNext = false ∧ s.nextCommand = none ∧ step s = .next t :=
  ⟨⟨{ holdingAbc with inbox := [.command ⟨0x00004005, []⟩] }, _, rfl, by decide, rfl, rfl⟩,
    ⟨issued (.command ⟨0x00004001, []⟩), _, rfl, by decide, rfl, rfl⟩,
    ⟨{ started with inbox := [.command ⟨0x00000104, [1]⟩] }, _, rfl, by decide, rfl, rfl⟩,
    ⟨issued (.command ⟨0x00004005, []⟩), _, rfl, by decide, rfl, by decide⟩,
    issued (.read 0 .four), _, rfl, rfl, rfl⟩

theorem witness_EveryStepKeepsSafe :
    Safe { fresh with inbox := [.command ⟨0x00000304, [0x61, 0x62, 0x63]⟩] } ∧
    nextIs (step { fresh with inbox := [.command ⟨0x00000304, [0x61, 0x62, 0x63]⟩] }) (fun t => t.buflen == 3) = true := by
  refine ⟨safe_of_same (s := fresh) ?_ rfl rfl, by decide⟩
  exact safe_of_absorbed fresh_absorbed rfl (by decide) rfl rfl

/-- Each pair of commands, from two states that hold different data. -/
theorem witness_ControlIgnoresTheData :
    let s := holdingAbc
    let s' : State := { holdingAbc with buf := [(0, 0x78)], h := Vector.replicate 8 1 }
    (s.phase = s'.phase ∧ s.buflen = s'.buflen ∧ s.digestLength = s'.digestLength ∧ s.t0 = s'.t0 ∧ s.t1 = s'.t1 ∧
      s.ncomp = s'.ncomp) ∧
    ((∃ t, exec (.update [1]) s = .next t) ∧ ∃ t, exec (.update [2]) s' = .next t) ∧
    ((∃ t, exec (.initKeyed 9 [1]) s = .next t) ∧ ∃ t, exec (.initKeyed 9 [2]) s' = .next t) ∧
    (∃ t, exec (.final 64) s = .next t) ∧ ∃ t, exec (.final 64) s' = .next t :=
  ⟨⟨rfl, rfl, rfl, rfl, rfl, rfl⟩, ⟨⟨_, rfl⟩, _, rfl⟩, ⟨⟨_, rfl⟩, _, rfl⟩, ⟨_, rfl⟩, _, rfl⟩

/-- A key of one byte and a key of 64, each with one byte behind it. -/
theorem witness_KeyBlockLeavesTheBuffer :
    ∀ key ∈ [[1], List.replicate 64 (2 : Byte)], 1 ≤ key.length ∧ key.length ≤ 64 ∧
      ∃ t u, exec (.initKeyed 64 key) State.reset = .next t ∧ exec (.update [3]) t = .next u := by
  intro key hkey
  simp only [List.mem_cons, List.not_mem_nil, or_false] at hkey
  rcases hkey with rfl | rfl <;> exact ⟨by decide, by decide, _, _, rfl, rfl⟩

theorem witness_EnginesAreIndependent : ∃ after, stepEngine 0 [issued (.write 0 []), State.reset] = .next after :=
  ⟨_, rfl⟩

/-- BUFLEN and DIGEST_LEN at their largest values, and the reserved offsets from the first to the last. -/
theorem witness_WindowMap :
    ({ State.reset with buflen := 256 } : State).buflen ≤ 256 ∧ ({ State.reset with digestLen := 64 } : State).digestLen ≤ 64 ∧
    (0x28 ≤ 0x28 ∧ 0x28 + 0x18 ≤ 0x40) ∧ (0x28 ≤ 0x3F ∧ 0x3F + 1 ≤ 0x40) ∧ 8 ≤ 8 ∧ 7 < 8 := by decide

theorem witness_WindowReadsAndWrites :
    (issued (.read 0x7E .four)).inbox = .read 0x7E .four :: [] ∧ (issued (.write 0 [1])).inbox = .write 0 [1] :: [] ∧
    (0 < 8 ∧ 0 < ReadSize.one.bytes ∧ ¬ 1 < ReadSize.one.bytes ∧ 7 < 8 ∧ 7 < ReadSize.eight.bytes) ∧
    (0x28 ≤ 0x28 ∧ 0x28 < 0x40) ∧ (0x28 ≤ 0x3F ∧ 0x3F < 0x40) ∧ 0x80 ≤ 0x80 :=
  ⟨rfl, rfl, by decide, by decide, by decide, by decide⟩

/-- Two states that differ in what the host must not see. -/
theorem witness_SecretsHaveNoObservationRegister :
    let s := holdingAbc
    let s' : State := { holdingAbc with
      h := Vector.replicate 8 1, f0 := mask64, f1 := mask64, buf := [], kscr := Vector.replicate 128 1 }
    s.err = s'.err ∧ s.phase = s'.phase ∧ s.digestLength = s'.digestLength ∧ s.lastNode = s'.lastNode ∧ s.t0 = s'.t0 ∧
      s.t1 = s'.t1 ∧ s.buflen = s'.buflen ∧ s.digestLen = s'.digestLen ∧ s.ncomp = s'.ncomp ∧ s.digest = s'.digest :=
  ⟨rfl, rfl, rfl, rfl, rfl, rfl, rfl, rfl, rfl, rfl⟩

/-- The block of P5, as a last node, with no bytes and with some in two UPDATEs. -/
theorem witness_StreamComputesBlake2b :
    let p := treeParam.block
    (1 ≤ p[0].toNat ∧ p[0].toNat ≤ 64 ∧ p[1].toNat ≤ 64) ∧
    (∀ k : Fin 64, 18 ≤ k.val → k.val < 32 → p[k] = 0) ∧
    ∀ chunks ∈ [[], [[0x61], [0x62, (0x63 : Byte)]]], (∀ c ∈ chunks, c.length ≤ 16777215) ∧ ∃ s : State,
      s.inbox = .command (encode (.initParam true p)) ::
        (chunks.map fun c => HostEvent.command (encode (.update c))) ++ [.command (encode (.final p[0]))] := by
  refine ⟨by decide, by decide, fun chunks hc => ⟨?_, { State.reset with inbox := _ }, rfl⟩⟩
  revert chunks
  decide

theorem witness_HashComputesBlake2b :
    (1 ≤ (64 : Byte).toNat ∧ (64 : Byte).toNat ≤ 64 ∧ (List.replicate 64 (0 : Byte)).length ≤ 64) ∧
    ¬ (1 ≤ (64 : Byte).toNat ∧ (64 : Byte).toNat ≤ 64 ∧ (List.replicate 65 (0 : Byte)).length ≤ 64) ∧
    ¬ (1 ≤ (0 : Byte).toNat ∧ (0 : Byte).toNat ≤ 64 ∧ ([] : List Byte).length ≤ 64) := by decide

/-- A state in phase Ready, whose buffer is as asked, and states in the two phases that ask nothing of it. -/
theorem witness_UpdateLongIsOneUpdate :
    (fresh.phase = .ready ∧ (fresh.phase = .ready → fresh.buf.wf ∧ fresh.buflen ≤ 128)) ∧
    (State.reset.phase = .idle ∧ (State.reset.phase = .ready → State.reset.buf.wf ∧ State.reset.buflen ≤ 128)) ∧
    (finalized.phase = .finalized ∧ (finalized.phase = .ready → finalized.buf.wf ∧ finalized.buflen ≤ 128)) :=
  ⟨⟨rfl, fun _ => ⟨by simp [fresh, Memory.wf], by simp [fresh]⟩⟩, ⟨rfl, nofun⟩, rfl, nofun⟩

theorem witness_ParamThenKeyBlockIsInitKeyed :
    (1 ≤ (1 : Byte).toNat ∧ (1 : Byte).toNat ≤ 64 ∧ 1 ≤ (List.replicate 64 (5 : Byte)).length ∧
      (List.replicate 64 (5 : Byte)).length ≤ 64 ∧ State.reset.kscr = Vector.replicate 128 0) ∧
    ∃ t, exec (.initParam false (plainParam 1 64)) State.reset = .next t :=
  ⟨by decide, _, rfl⟩

end Sys2Proof.Tests
end

/-! PROOFS about the state (spec/10_state.md): the fields of STATUS and CONFIG, and which steps write the phase and the
digest registers. -/

namespace Sys2Proof.Machine

/-! ### The fields of STATUS and CONFIG -/

@[simp] theorem statusWord_err (s : State) : (statusWord s).extractLsb' 0 4 = s.err.code :=
  BitVec.extractLsb'_append_eq_right

@[simp] theorem statusWord_phase (s : State) : (statusWord s).extractLsb' 4 2 = s.phase.code :=
  (BitVec.extractLsb'_append_eq_of_le le_rfl).trans BitVec.extractLsb'_append_eq_right

/-- Bits [31:6] of STATUS read 0 (R31). -/
@[simp] theorem statusWord_reserved (s : State) : (statusWord s).extractLsb' 6 26 = 0 :=
  (BitVec.extractLsb'_append_eq_of_le (by decide)).trans BitVec.extractLsb'_append_eq_left

@[simp] theorem configWord_digestLength (s : State) : (configWord s).extractLsb' 0 8 = s.digestLength :=
  BitVec.extractLsb'_append_eq_right

@[simp] theorem configWord_lastNode (s : State) : (configWord s).getLsbD 8 = s.lastNode :=
  BitVec.getLsbD_append.trans (BitVec.getLsbD_append.trans (BitVec.getLsbD_ofBool s.lastNode 0))

/-- Bits [31:9] of CONFIG read 0 (R34). -/
@[simp] theorem configWord_reserved (s : State) : (configWord s).extractLsb' 9 23 = 0 :=
  (BitVec.extractLsb'_append_eq_of_le (by decide)).trans BitVec.extractLsb'_append_eq_left

/-- Settles O46: each field is one part of the concatenation the register is. -/
theorem statusAndConfigFields : Obligations.StatusAndConfigFields :=
  ⟨⟨rfl, rfl, rfl, rfl, rfl, rfl⟩, fun s =>
    ⟨statusWord_err s, statusWord_phase s, statusWord_reserved s,
      configWord_digestLength s, configWord_lastNode s, configWord_reserved s⟩⟩

/-! ### What a step does with the event it takes -/

/-- The state in which the oldest event is carried out: the event taken, nothing returned yet. -/
def State.taken (s : State) : State :=
  { s with inbox := s.inbox.tail, output := none }

@[simp] theorem State.taken_phase (s : State) : s.taken.phase = s.phase := rfl

theorem step_of_inbox_nil {s : State} (hin : s.inbox = []) : step s = .next s := by
  simp only [step, hin]

theorem step_of_inbox_cons {s : State} {e : HostEvent} {rest : List HostEvent} (hin : s.inbox = e :: rest) :
    step s = handleEvent e s.taken := by
  simp only [step, State.taken, hin, List.tail_cons]

/-- The next event is one of the two resets. -/
theorem State.resetNext_eq_true_iff (s : State) :
    s.resetNext = true ↔ ∃ rest, s.inbox = .reset :: rest ∨ ∃ tx, s.inbox = .resetDuring tx :: rest := by
  unfold State.resetNext
  split <;> simp_all

/-- The next event is a transaction that decodes. -/
theorem State.nextCommand_eq_some_iff (s : State) (i : Instr) :
    s.nextCommand = some i ↔ ∃ tx rest, s.inbox = .command tx :: rest ∧ decode tx.cw tx.payload = some i := by
  unfold State.nextCommand
  split <;> simp_all

/-- Either reset leaves the reset state, what was issued after it still waiting (R220, R221). -/
theorem step_of_resetNext {s : State} (hr : s.resetNext = true) : step s = .next (resetEngine s.taken) := by
  obtain ⟨rest, hin | ⟨tx, hin⟩⟩ := s.resetNext_eq_true_iff.1 hr <;> rw [step_of_inbox_cons hin, handleEvent]

/-- A transaction that decodes is carried out by `exec` (R140). -/
theorem step_of_nextCommand {s : State} {i : Instr} (hc : s.nextCommand = some i) : step s = exec i s.taken := by
  obtain ⟨tx, rest, hin, hd⟩ := (s.nextCommand_eq_some_iff i).1 hc
  rw [step_of_inbox_cons hin, handleEvent, execute, hd]

/-! ### The phase and the digest registers -/

/-- The phase, DIGEST and DIGEST_LEN of `t` are those of `s`. -/
structure SameResult (s t : State) : Prop where
  phase : t.phase = s.phase
  digest : t.digest = s.digest
  digestLen : t.digestLen = s.digestLen

theorem sameResult_raise (e : ErrorCode) (s : State) : SameResult s (raise e s) := by constructor <;> simp

theorem sameResult_returnOk (d : List Byte) (s : State) : SameResult s (returnOk d s) := by constructor <;> simp

theorem SameResult.trans {s t u : State} (h : SameResult s t) (k : SameResult t u) : SameResult s u :=
  ⟨k.phase.trans h.phase, k.digest.trans h.digest, k.digestLen.trans h.digestLen⟩

/-- Taking the event itself changes none of the three. -/
theorem sameResult_taken (s : State) : SameResult s s.taken := ⟨rfl, rfl, rfl⟩

theorem sameResult_absorb (data : List Byte) (s : State) : SameResult s (absorb data s) :=
  have h := sameOutside_absorb data s
  ⟨h.phase, h.digest, h.digestLen⟩

theorem sameResult_carrying (e : ErrorCode) (k : Vector Byte 128) (o : Option HostOutput) (s : State) :
    SameResult s (carrying e k o s) :=
  ⟨rfl, rfl, rfl⟩

theorem sameResult_absorbKey (key : List Byte) (s : State) : SameResult s (absorbKey key s) := by
  rw [absorbKey_eq]
  exact (sameResult_absorb _ s).trans (sameResult_carrying ..)

/-- A step that takes neither a reset nor a transaction that decodes. -/
theorem sameResult_step {s t : State} (hr : s.resetNext = false) (hc : s.nextCommand = none) (h : step s = .next t) :
    SameResult s t := by
  cases hin : s.inbox with
  | nil =>
    rw [step_of_inbox_nil hin] at h
    cases h
    exact ⟨rfl, rfl, rfl⟩
  | cons e rest =>
    rw [step_of_inbox_cons hin] at h
    cases e with
    | command tx =>
      have hd : decode tx.cw tx.payload = none := by simpa only [State.nextCommand, hin] using hc
      simp only [handleEvent, execute, hd] at h
      cases h
      exact (sameResult_taken s).trans (sameResult_raise ..)
    | read offset size => cases h; exact ⟨rfl, rfl, rfl⟩
    | write offset data => cases h; exact ⟨rfl, rfl, rfl⟩
    | reset => simp [State.resetNext, hin] at hr
    | resetDuring tx => simp [State.resetNext, hin] at hr

/-! ### What each command does to them -/

section
variable {i : Instr} {s t : State}

/-- A command that leaves an error is `raise` of it (R196). -/
theorem exec_eq_raise_of_err_ne_ok (h : exec i s = .next t) (he : t.err ≠ .ok) : t = raise t.err s := by
  obtain ⟨e, -, rfl⟩ | ⟨_, -, -, rfl⟩ | ⟨_, _, -, -, -, rfl⟩ | ⟨_, _, -, -, -, -, rfl⟩ | ⟨_, -, -, rfl⟩ |
    ⟨_, -, -, -, rfl⟩ := exec_cases h
  · rw [raise_err]
  all_goals exact absurd (returnOk_err _ _) he

theorem sameResult_exec_of_err_ne_ok (h : exec i s = .next t) (he : t.err ≠ .ok) : SameResult s t :=
  exec_eq_raise_of_err_ne_ok h he ▸ sameResult_raise t.err s

/-- A successful INIT leaves the phase and the registers as InitFromParam does: the key path writes none of them. -/
theorem sameResult_exec_init (hi : i.isInit = true) (h : exec i s = .next t) (he : t.err = .ok) :
    ∃ param lastNode, SameResult (initFromParam param lastNode s) t := by
  obtain ⟨e, hne, rfl⟩ | ⟨o, -, -, rfl⟩ | ⟨o, key, -, -, -, rfl⟩ | ⟨ln, p, -, -, -, -, rfl⟩ | ⟨_, rfl, -⟩ |
    ⟨_, rfl, -⟩ := exec_cases h
  · exact absurd he (by rwa [raise_err])
  · exact ⟨_, _, sameResult_returnOk _ _⟩
  · refine ⟨plainParam o key.length, false, SameResult.trans ?_ (sameResult_returnOk _ _)⟩
    split
    · exact sameResult_absorbKey _ _
    · exact ⟨rfl, rfl, rfl⟩
  · exact ⟨_, _, sameResult_returnOk _ _⟩
  · cases hi
  · cases hi

/-- UPDATE writes neither the phase nor the registers, whether it succeeds or not (R160). -/
theorem sameResult_exec_update {data : List Byte} (h : exec (.update data) s = .next t) : SameResult s t := by
  obtain ⟨e, -, rfl⟩ | ⟨_, hi, -⟩ | ⟨_, _, hi, -⟩ | ⟨_, _, hi, -⟩ | ⟨data', -, -, rfl⟩ | ⟨_, hi, -⟩ := exec_cases h
  · exact sameResult_raise e s
  · cases hi
  · cases hi
  · cases hi
  · exact (sameResult_absorb data' s).trans (sameResult_returnOk _ _)
  · cases hi

/-- A successful FINAL ends the computation and puts OUTLEN bytes of the chaining value it leaves into DIGEST
(R163, R166). -/
theorem exec_final_result {o : Byte} (h : exec (.final o) s = .next t) (he : t.err = .ok) :
    t.phase = .finalized ∧ t.digestLen = o.toNat ∧ t.digest = digestRegister t.h o.toNat := by
  obtain ⟨e, hne, rfl⟩ | ⟨_, hi, -⟩ | ⟨_, _, hi, -⟩ | ⟨_, _, hi, -⟩ | ⟨_, hi, -⟩ | ⟨o', hi, -, -, rfl⟩ := exec_cases h
  · exact absurd he (by rwa [raise_err])
  · cases hi
  · cases hi
  · cases hi
  · cases hi
  · cases hi
    simp [finishDigest]

theorem exec_init_phase (hi : i.isInit = true) (h : exec i s = .next t) :
    t.phase = if t.err = .ok then .ready else s.phase := by
  split
  · next he =>
    obtain ⟨_, _, hs⟩ := sameResult_exec_init hi h he
    rw [hs.phase, initFromParam_phase]
  · next he => exact (sameResult_exec_of_err_ne_ok h he).phase

theorem exec_final_phase {o : Byte} (h : exec (.final o) s = .next t) :
    t.phase = if t.err = .ok then .finalized else s.phase := by
  split
  · next he => exact (exec_final_result h he).1
  · next he => exact (sameResult_exec_of_err_ne_ok h he).phase

end

/-! ### The two invariants -/

/-- Settles O39, by the kind of event the step takes and then by command. -/
theorem phaseTransitions : Obligations.PhaseTransitions := by
  refine ⟨⟨rfl, rfl, rfl, fun p => by cases p <;> decide⟩, rfl, statusWord_phase, fun s t h => ?_⟩
  cases hr : s.resetNext with
  | true =>
    rw [step_of_resetNext hr] at h
    cases h
    rfl
  | false =>
    rw [if_neg Bool.false_ne_true]
    cases hc : s.nextCommand with
    | none => exact (sameResult_step hr hc h).phase
    | some i =>
      rw [step_of_nextCommand hc] at h
      rw [← s.taken_phase]
      cases i with
      | initPlain o => exact exec_init_phase rfl h
      | initKeyed o key => exact exec_init_phase rfl h
      | initParam ln p => exact exec_init_phase rfl h
      | update data => exact (sameResult_exec_update h).phase
      | final o => exact exec_final_phase h

/-- A step that takes no successful INIT or FINAL and no reset leaves the phase and the registers as they were. -/
theorem sameResult_step_of_no_writer {s t : State} (h : step s = .next t) (hr : s.resetNext = false)
    (hw : s.nextCommand = none ∨ t.err ≠ .ok ∨ ∃ data, s.nextCommand = some (.update data)) : SameResult s t := by
  cases hc : s.nextCommand with
  | none => exact sameResult_step hr hc h
  | some i =>
    rw [step_of_nextCommand hc] at h
    refine (sameResult_taken s).trans ?_
    obtain hn | he | ⟨data, hu⟩ := hw
    · cases hc.symm.trans hn
    · exact sameResult_exec_of_err_ne_ok h he
    · cases hc.symm.trans hu
      exact sameResult_exec_update h

/-- Settles O40: FINAL and INIT by what they leave of the registers, every other step by `SameResult`. -/
theorem digestRegisterWriters : Obligations.DigestRegisterWriters := by
  refine ⟨⟨rfl, fun j => Vector.getElem_replicate j.isLt⟩,
    fun s t h hr => ⟨fun o hc he => ?_, fun i hc hi he => ?_, fun hw => ?_⟩⟩
  · rw [step_of_nextCommand hc] at h
    obtain ⟨-, hlen, hdig⟩ := exec_final_result h he
    refine ⟨hlen, fun j => ?_⟩
    rw [hlen, hdig]
    exact Vector.getElem_ofFn j.isLt
  · rw [step_of_nextCommand hc] at h
    obtain ⟨param, lastNode, hs⟩ := sameResult_exec_init hi h he
    refine ⟨by rw [hs.digestLen, initFromParam_digestLen], fun j => ?_⟩
    rw [hs.digest, initFromParam_digest]
    exact Vector.getElem_replicate j.isLt
  · have hs := sameResult_step_of_no_writer h hr hw
    exact ⟨hs.digest, hs.digestLen⟩

end Sys2Proof.Machine

/-! PROOFS about the memory (spec/20_memory.md): the word codec and the byte orders built on it, the byte counter, and
the observation window. -/

namespace Sys2Proof.Machine

/-! ### The word codec -/

/-- Byte `k` of a string of at most 8 bytes is byte `k` of its `load64` (R50). -/
theorem byteAt_load64 {bytes : List Byte} (hlen : bytes.length ≤ 8) (k : Nat) :
    byteAt (load64 bytes) k = bytes.getD k 0 :=
  byteAt_ofNat_littleEndian bytes k (by omega)

theorem getD_store64 (w : Word) {k : Nat} (hk : k < 8) : (store64 w).getD k 0 = byteAt w k :=
  getD_littleEndianBytes 8 w hk

theorem load64_store64 (w : Word) : load64 (store64 w) = w :=
  word_ext (n := 8) fun k hk => by rw [byteAt_load64 (length_store64 w).le, getD_store64 w hk]

theorem store64_load64 {bytes : List Byte} (hlen : bytes.length = 8) : store64 (load64 bytes) = bytes := by
  have hstore : (store64 (load64 bytes)).length = 8 := length_store64 _
  refine List.ext_getElem (hstore.trans hlen.symm) fun k hk hk' => ?_
  rw [← List.getD_eq_getElem _ 0 hk, ← List.getD_eq_getElem _ 0 hk', getD_store64 _ (hstore ▸ hk),
    byteAt_load64 hlen.le]

/-- Settles O14: both directions of the codec, byte by byte. -/
theorem codecIsInverse : Obligations.CodecIsInverse :=
  ⟨fun w => ⟨load64_store64 w, length_store64 w, fun k => getD_store64 w k.isLt⟩,
    fun _ hlen => ⟨store64_load64 hlen, fun k => byteAt_load64 hlen.le k⟩⟩

/-! ### Message words and Serialize -/

theorem getElem_decodeBlock (block : List Byte) (i : Fin 16) :
    (decodeBlock block)[i] = load64 ((block.drop (8 * i.val)).take 8) :=
  Vector.getElem_ofFn i.isLt

theorem getD_take_drop (bytes : List Byte) (a : Nat) {n k : Nat} (hk : k < n) :
    ((bytes.drop a).take n).getD k 0 = bytes.getD (a + k) 0 := by
  simp only [List.getD_eq_getElem?_getD, List.getElem?_take_of_lt hk, List.getElem?_drop]

/-- Settles O15: a message word is the `load64` of its 8 bytes, and `load64` is byte by byte. -/
theorem messageWordsAreLittleEndian : Obligations.MessageWordsAreLittleEndian := by
  refine fun block _ i => ⟨getElem_decodeBlock block i, fun k => ?_⟩
  rw [getElem_decodeBlock]
  exact (byteAt_load64 (List.length_take_le _ _) k).trans (getD_take_drop block (8 * i.val) k.isLt)

theorem length_flatMap_store64 (words : List Word) : (words.flatMap store64).length = 8 * words.length := by
  simp [List.length_flatMap, length_store64, Nat.mul_comm]

/-- The first `n` bytes of stored words lie in the first `ceil(n/8)` of them. -/
theorem take_flatMap_store64 (words : List Word) {n : Nat} (hn : n ≤ 8 * words.length) :
    (words.flatMap store64).take n = ((words.take ((n + 7) / 8)).flatMap store64).take n := by
  have hlen : ((words.take ((n + 7) / 8)).flatMap store64).length = 8 * ((n + 7) / 8) := by
    rw [length_flatMap_store64, List.length_take, Nat.min_eq_left (by omega)]
  conv_lhs => rw [← List.take_append_drop ((n + 7) / 8) words, List.flatMap_append]
  exact List.take_append_of_le_length (by omega)

theorem toList_eq_words (h : Vector Word 8) : h.toList = [h[0], h[1], h[2], h[3], h[4], h[5], h[6], h[7]] := by
  conv_lhs => rw [← Vector.ofFn_getElem (xs := h), Vector.toList_ofFn]
  rfl

/-- Byte `j` of Serialize(h) is byte `j mod 8` of word `j div 8` (R58). -/
theorem getD_serialize (h : Vector Word 8) {j : Nat} (hj : j < 64) :
    (serialize h).getD j 0 = byteAt h[j / 8] (j % 8) := by
  rw [serialize, getD_flatMap_store64 _ (by rw [Vector.length_toList]; omega),
    List.getD_eq_getElem _ _ (by rw [Vector.length_toList]; omega), Vector.getElem_toList]

/-- Settles O16, by the facts about storing a list of words. -/
theorem serializeByteOrder : Obligations.SerializeByteOrder := by
  refine fun h => ⟨length_serialize h, ?_, fun j => getD_serialize h j.isLt, fun n hn => ?_⟩
  · rw [serialize, toList_eq_words]
    simp only [List.flatMap_cons, List.flatMap_nil, List.append_nil, List.append_assoc]
  · exact take_flatMap_store64 h.toList (by rwa [Vector.length_toList])

/-! ### The byte counter -/

/-- The low word wraps exactly when it ends below `k`, and the carry then goes into the high word (R57). -/
theorem incrementCounter_toNat (s : State) {k : Nat} (hk : k < 2 ^ 64) :
    (incrementCounter k s).t1.toNat * 2 ^ 64 + (incrementCounter k s).t0.toNat =
      (s.t1.toNat * 2 ^ 64 + s.t0.toNat + k) % 2 ^ 128 := by
  have h0 := s.t0.isLt
  have h1 := s.t1.isLt
  have hlow : (s.t0 + BitVec.ofNat 64 k).toNat = (s.t0.toNat + k) % 2 ^ 64 := by simp
  rw [incrementCounter_t0, incrementCounter_t1, hlow]
  split
  · have hhigh : (s.t1 + 1).toNat = (s.t1.toNat + 1) % 2 ^ 64 := by simp
    omega
  · omega

/-- Settles O17: the sum, and the frame by the definition. -/
theorem counterAddsModulo128Bits : Obligations.CounterAddsModulo128Bits :=
  fun s _ hk => ⟨incrementCounter_toNat s (by omega), rfl⟩

/-! ### The observation window -/

section
variable (s : State) {k : Nat}

theorem windowByte_status (hk : k < 4) : windowByte s (0x00 + k) = byteAt (statusWord s) k := by
  simp (disch := omega) only [windowByte, if_pos, Nat.zero_add]

theorem windowByte_config (hk : k < 4) : windowByte s (0x04 + k) = byteAt (configWord s) k := by
  simp (disch := omega) only [windowByte, if_pos, if_neg, Nat.add_sub_cancel_left]

theorem windowByte_tLo (hk : k < 8) : windowByte s (0x08 + k) = byteAt s.t0 k := by
  simp (disch := omega) only [windowByte, if_pos, if_neg, Nat.add_sub_cancel_left]

theorem windowByte_tHi (hk : k < 8) : windowByte s (0x10 + k) = byteAt s.t1 k := by
  simp (disch := omega) only [windowByte, if_pos, if_neg, Nat.add_sub_cancel_left]

theorem windowByte_buflen (hk : k < 4) : windowByte s (0x18 + k) = byteAt (buflenWord s) k := by
  simp (disch := omega) only [windowByte, if_pos, if_neg, Nat.add_sub_cancel_left]

theorem windowByte_digestLen (hk : k < 4) : windowByte s (0x1C + k) = byteAt (digestLenWord s) k := by
  simp (disch := omega) only [windowByte, if_pos, if_neg, Nat.add_sub_cancel_left]

theorem windowByte_ncomp (hk : k < 8) : windowByte s (0x20 + k) = byteAt s.ncomp k := by
  simp (disch := omega) only [windowByte, if_pos, if_neg, Nat.add_sub_cancel_left]

/-- The reserved offsets between NCOMP and DIGEST (R61). -/
theorem windowByte_reserved {o : Nat} (hlo : 0x28 ≤ o) (hhi : o < 0x40) : windowByte s o = 0 := by
  simp (disch := omega) only [windowByte, if_pos, if_neg]

/-- From 0x40 on the window shows DIGEST, and 0 behind its last byte (R60, R61). -/
theorem windowByte_digest (j : Nat) : windowByte s (0x40 + j) = s.digest.toList.getD j 0 := by
  simp (disch := omega) only [windowByte, if_neg, Nat.add_sub_cancel_left]

/-- Byte `k` of a read of up to 8 bytes is the window byte at its offset plus `k` (R60). -/
theorem byteAt_observe (o : Nat) {n : Nat} (hn : n ≤ 8) (hk : k < n) :
    byteAt (observe s o n) k = windowByte s (o + k) := by
  rw [observe, byteAt_ofNat_littleEndian _ _ (by simpa using Nat.mul_le_mul_left 8 hn),
    List.getD_eq_getElem _ _ (by simpa using hk), List.getElem_map, List.getElem_range]

/-- A read over the `n` bytes of a register gives the register's value (R60). -/
theorem observe_eq_setWidth {o n w : Nat} {x : BitVec w} (hw : w ≤ 8 * n)
    (h : ∀ k, k < n → windowByte s (o + k) = byteAt x k) : observe s o n = x.setWidth 64 := by
  have hbytes : (List.range n).map (fun k => windowByte s (o + k)) = littleEndianBytes n x :=
    List.map_congr_left fun k hk => h k (List.mem_range.1 hk)
  have hfit : x.toNat < 256 ^ n := by
    rw [show 256 = 2 ^ 8 from rfl, ← Nat.pow_mul]
    exact x.isLt.trans_le (Nat.pow_le_pow_right (by decide) hw)
  rw [observe, hbytes, littleEndian_littleEndianBytes, Nat.mod_eq_of_lt hfit, BitVec.ofNat_toNat]

/-- A register of which a low field holds a number that fits it, the other bits 0, has that number as its value. -/
theorem setWidth_zero_append_ofNat {a b v : Nat} (w : Nat) (hv : v < 2 ^ b) :
    (0#a ++ BitVec.ofNat b v).setWidth w = BitVec.ofNat w v := by
  apply BitVec.eq_of_toNat_eq
  rw [BitVec.toNat_setWidth, BitVec.toNat_append, BitVec.toNat_ofNat, BitVec.toNat_ofNat, BitVec.toNat_ofNat,
    Nat.zero_mod, Nat.zero_shiftLeft, Nat.zero_or, Nat.mod_eq_of_lt hv]

theorem buflenWord_setWidth (h : s.buflen ≤ 256) : (buflenWord s).setWidth 64 = BitVec.ofNat 64 s.buflen :=
  setWidth_zero_append_ofNat 64 (Nat.lt_of_le_of_lt h (by decide))

theorem digestLenWord_setWidth (h : s.digestLen ≤ 64) :
    (digestLenWord s).setWidth 64 = BitVec.ofNat 64 s.digestLen :=
  setWidth_zero_append_ofNat 64 (Nat.lt_of_le_of_lt h (by decide))

theorem observe_reserved {o n : Nat} (hlo : 0x28 ≤ o) (hhi : o + n ≤ 0x40) : observe s o n = 0 := by
  refine observe_eq_setWidth s (x := 0#0) (Nat.zero_le _) fun k hk => ?_
  rw [windowByte_reserved s (by omega) (by omega)]
  simp [byteAt]

theorem observe_digest (j : Fin 64) : observe s (0x40 + j.val) 1 = s.digest[j].setWidth 64 := by
  refine observe_eq_setWidth s le_rfl fun k hk => ?_
  obtain rfl : k = 0 := Nat.lt_one_iff.1 hk
  rw [Nat.add_zero, windowByte_digest, List.getD_eq_getElem _ _ (by simp), Vector.getElem_toList]
  exact (BitVec.extractLsb'_eq_self).symm

end

/-- Settles O47: each register by the window bytes at its offset. -/
theorem windowMap : Obligations.WindowMap := by
  refine fun s => ⟨?status, ?config, ?tLo, ?tHi, fun hb => ?buflen, fun hd => ?digestLen, ?ncomp,
    fun o n => observe_reserved s, observe_digest s, fun o n k hn hk => ?bytes⟩
  case status => exact observe_eq_setWidth s le_rfl fun _ => windowByte_status s
  case config => exact observe_eq_setWidth s le_rfl fun _ => windowByte_config s
  case tLo => exact (observe_eq_setWidth s le_rfl fun _ => windowByte_tLo s).trans (BitVec.setWidth_eq _)
  case tHi => exact (observe_eq_setWidth s le_rfl fun _ => windowByte_tHi s).trans (BitVec.setWidth_eq _)
  case buflen =>
    exact (observe_eq_setWidth s le_rfl fun _ => windowByte_buflen s).trans (buflenWord_setWidth s hb)
  case digestLen =>
    exact (observe_eq_setWidth s le_rfl fun _ => windowByte_digestLen s).trans (digestLenWord_setWidth s hd)
  case ncomp => exact (observe_eq_setWidth s le_rfl fun _ => windowByte_ncomp s).trans (BitVec.setWidth_eq _)
  case bytes =>
    exact (byteAt_observe s o hn hk).trans (byteAt_observe s (o + k) (by decide) Nat.one_pos).symm

end Sys2Proof.Machine

/-! PROOFS about the encoding (spec/30_encoding.md): what a transaction returns, and which transactions are illegal. -/

namespace Sys2Proof.Machine

/-! ### A step that takes a transaction -/

section
variable {s : State} {tx : Transaction} {rest : List HostEvent}

/-- A transaction that does not decode ends in IllegalCommand (R193). -/
theorem step_of_illegal (hin : s.inbox = .command tx :: rest) (hd : decode tx.cw tx.payload = none) :
    step s = .next (raise .illegalCommand s.taken) := by
  rw [step_of_inbox_cons hin, handleEvent, execute, hd]

/-- A transaction that decodes is carried out by `exec` (R140). -/
theorem step_of_decoded {i : Instr} (hin : s.inbox = .command tx :: rest) (hd : decode tx.cw tx.payload = some i) :
    step s = exec i s.taken :=
  step_of_nextCommand ((s.nextCommand_eq_some_iff i).2 ⟨tx, rest, hin, hd⟩)

end

/-! ### The response -/

/-- The digest bytes of the response, by what the transaction decodes to and the state it leaves (R87). -/
def responseBytes (decoded : Option Instr) (t : State) : List Byte :=
  match decoded with
  | some (.final outlen) => if t.err = .ok then t.digest.toList.take outlen.toNat else []
  | _ => []

theorem responseBytes_of_err_ne_ok (decoded : Option Instr) {t : State} (he : t.err ≠ .ok) :
    responseBytes decoded t = [] := by
  unfold responseBytes
  split
  · exact if_neg he
  · rfl

theorem responseBytes_final (outlen : Byte) {t : State} (he : t.err = .ok) :
    responseBytes (some (.final outlen)) t = t.digest.toList.take outlen.toNat :=
  if_pos he

theorem raise_response (e : ErrorCode) (s : State) :
    (raise e s).output = some (.response (statusWord (raise e s)) []) := by
  rw [raise_output, statusWord, raise_phase, raise_err]

theorem returnOk_response (bytes : List Byte) (s : State) :
    (returnOk bytes s).output = some (.response (statusWord (returnOk bytes s)) bytes) := by
  rw [returnOk_output, statusWord, returnOk_phase, returnOk_err]

/-- Every command returns the STATUS it leaves; only a FINAL that succeeded returns bytes with it. -/
theorem exec_response {i : Instr} {s t : State} (h : exec i s = .next t) :
    t.output = some (.response (statusWord t) (responseBytes (some i) t)) := by
  obtain ⟨e, hne, rfl⟩ | ⟨_, rfl, -, rfl⟩ | ⟨_, _, rfl, -, -, rfl⟩ | ⟨_, _, rfl, -, -, -, rfl⟩ | ⟨_, rfl, -, rfl⟩ |
    ⟨o, rfl, -, -, rfl⟩ := exec_cases h
  · rw [responseBytes_of_err_ne_ok (some i) (by rwa [raise_err])]
    exact raise_response e s
  · exact returnOk_response [] _
  · exact returnOk_response [] _
  · exact returnOk_response [] _
  · exact returnOk_response [] _
  · rw [responseBytes_final o (returnOk_err _ _), returnOk_digest]
    exact returnOk_response _ _

/-- Settles O7: an illegal transaction raises its error, and every other one is a command. -/
theorem responseIsStatusAndDigest : Obligations.ResponseIsStatusAndDigest := by
  intro s tx rest u hin hstep
  change u.output = some (.response (statusWord u) (responseBytes (decode tx.cw tx.payload) u))
  cases hd : decode tx.cw tx.payload with
  | none =>
    cases (step_of_illegal hin hd).symm.trans hstep
    exact raise_response .illegalCommand s.taken
  | some i => exact exec_response ((step_of_decoded hin hd).symm.trans hstep)

end Sys2Proof.Machine

namespace Sys2Proof

/-! ### The masks of the command formats -/

section
variable (cw : CommandWord)

theorem and_opcodeMask_toNat : (cw &&& 0xF#32).toNat = opcodeField cw := by
  rw [opcodeField_eq, BitVec.toNat_and]
  exact Nat.and_two_pow_sub_one_eq_mod cw.toNat 4

theorem and_opcodeMask_eq {n : Nat} (hn : opcodeField cw = n) : (cw &&& 0xF#32) = BitVec.ofNat 32 n := by
  rw [← hn, ← and_opcodeMask_toNat, BitVec.ofNat_toNat, BitVec.setWidth_eq]

theorem keylenField_toNat : (keylenField cw).toNat = ((cw >>> 16) &&& 0xFF#32).toNat := by
  rw [keylenField, BitVec.extractLsb'_toNat, BitVec.toNat_and, BitVec.toNat_ushiftRight]
  exact (Nat.and_two_pow_sub_one_eq_mod (cw.toNat >>> 16) 8).symm

theorem lenField_toNat : (lenField cw).toNat = (cw >>> 8).toNat := by
  have hlt := cw.isLt
  rw [lenField, field_toNat, BitVec.toNat_ushiftRight, Nat.shiftRight_eq_div_pow]
  omega

/-- A mask of `len` ones at bit `lo` meets the word exactly when the field there is not 0. -/
theorem field_ne_zero_iff {lo len : Nat} {mask : CommandWord}
    (hmask : mask = BitVec.ofNat 32 ((2 ^ len - 1) * 2 ^ lo)) (hl : lo + len ≤ 32) :
    cw.extractLsb' lo len ≠ 0 ↔ (cw &&& mask) ≠ 0 :=
  not_congr ((field_eq_zero_iff cw lo len).trans (and_mask_eq_zero_iff cw hmask hl).symm)

/-- A mask of two fields meets the word exactly when one of them is not 0. -/
theorem field_ne_zero_or_iff {lo len lo' len' : Nat} {mask : CommandWord}
    (hmask : mask = BitVec.ofNat 32 ((2 ^ len - 1) * 2 ^ lo) ||| BitVec.ofNat 32 ((2 ^ len' - 1) * 2 ^ lo'))
    (hl : lo + len ≤ 32) (hl' : lo' + len' ≤ 32) :
    cw.extractLsb' lo len ≠ 0 ∨ cw.extractLsb' lo' len' ≠ 0 ↔ (cw &&& mask) ≠ 0 := by
  rw [hmask, field_ne_zero_iff cw rfl hl, field_ne_zero_iff cw rfl hl', BitVec.and_or_distrib_left, ← not_and_or,
    not_iff_not]
  exact BitVec.or_eq_zero_iff.symm

/-- Bits [7:4], all that UPDATE reserves (R75). -/
theorem reservedUpdate_ne_zero_iff : cw.extractLsb' 4 4 ≠ 0 ↔ (cw &&& 0x000000F0#32) ≠ 0 :=
  field_ne_zero_iff cw rfl (by decide)

/-- The reserved bits of INIT_PLAIN and FINAL (R72, R76). -/
theorem reservedOutlen_ne_zero_iff :
    cw.extractLsb' 4 4 ≠ 0 ∨ cw.extractLsb' 16 16 ≠ 0 ↔ (cw &&& 0xFFFF00F0#32) ≠ 0 :=
  field_ne_zero_or_iff cw rfl (by decide) (by decide)

/-- The reserved bits of INIT_KEYED (R73). -/
theorem reservedKeyed_ne_zero_iff :
    cw.extractLsb' 4 4 ≠ 0 ∨ cw.extractLsb' 24 8 ≠ 0 ↔ (cw &&& 0xFF0000F0#32) ≠ 0 :=
  field_ne_zero_or_iff cw rfl (by decide) (by decide)

/-- The reserved bits of INIT_PARAM (R74). -/
theorem reservedParam_ne_zero_iff : cw.extractLsb' 5 27 ≠ 0 ↔ (cw &&& 0xFFFFFFE0#32) ≠ 0 :=
  field_ne_zero_iff cw rfl (by decide)

end

/-! ### When `decode` refuses, by opcode -/

section
variable {cw : CommandWord} (payload : List Byte)

/-- Two checks one after the other refuse exactly when one of them fails. -/
theorem checks_eq_none_iff {α : Type} {reserved length : Prop} [Decidable reserved] [Decidable length]
    (i : length → α) :
    (if reserved then none else if hl : length then some (i hl) else none) = none ↔ reserved ∨ ¬ length := by
  by_cases hr : reserved <;> by_cases hl : length <;> simp [hr, hl]

theorem decode_initPlain_eq_none_iff (h : opcodeField cw = 1) :
    decode cw payload = none ↔ (cw &&& 0xFFFF00F0#32) ≠ 0 ∨ payload.length ≠ 0 := by
  rw [← reservedOutlen_ne_zero_iff, decode, h]
  exact checks_eq_none_iff _

theorem decode_initKeyed_eq_none_iff (h : opcodeField cw = 2) :
    decode cw payload = none ↔
      (cw &&& 0xFF0000F0#32) ≠ 0 ∨ payload.length ≠ ((cw >>> 16) &&& 0xFF#32).toNat := by
  rw [← reservedKeyed_ne_zero_iff, ← keylenField_toNat, decode, h]
  exact checks_eq_none_iff _

theorem decode_initParam_eq_none_iff (h : opcodeField cw = 3) :
    decode cw payload = none ↔ (cw &&& 0xFFFFFFE0#32) ≠ 0 ∨ payload.length ≠ 64 := by
  rw [← reservedParam_ne_zero_iff, decode, h]
  exact checks_eq_none_iff _

theorem decode_update_eq_none_iff (h : opcodeField cw = 4) :
    decode cw payload = none ↔ (cw &&& 0x000000F0#32) ≠ 0 ∨ payload.length ≠ (cw >>> 8).toNat := by
  rw [← reservedUpdate_ne_zero_iff, ← lenField_toNat, decode, h]
  exact checks_eq_none_iff _

theorem decode_final_eq_none_iff (h : opcodeField cw = 5) :
    decode cw payload = none ↔ (cw &&& 0xFFFF00F0#32) ≠ 0 ∨ payload.length ≠ 0 := by
  rw [← reservedOutlen_ne_zero_iff, decode, h]
  exact checks_eq_none_iff _

theorem decode_eq_none_of_reserved_opcode (h : opcodeField cw = 0 ∨ 6 ≤ opcodeField cw) : decode cw payload = none := by
  unfold decode
  split
  case h_6 => rfl
  all_goals omega

end

/-- Settles O10: the opcode selects one clause of each cause, and those are the checks `decode` makes for it. -/
theorem illegalExactlyByTheThreeCauses : Obligations.IllegalExactlyByTheThreeCauses := by
  refine ⟨fun cw payload => ?_, fun s tx rest hin hd => ⟨_, Machine.step_of_illegal hin hd, Machine.raise_err _ _⟩⟩
  have hcases : (opcodeField cw = 0 ∨ 6 ≤ opcodeField cw) ∨ opcodeField cw = 1 ∨ opcodeField cw = 2 ∨
      opcodeField cw = 3 ∨ opcodeField cw = 4 ∨ opcodeField cw = 5 := by omega
  obtain hop | hop | hop | hop | hop | hop := hcases
  · refine iff_of_true (decode_eq_none_of_reserved_opcode payload hop) (.inl ?_)
    rw [and_opcodeMask_toNat]
    exact hop.imp_left (and_opcodeMask_eq cw)
  · simp [decode_initPlain_eq_none_iff payload hop, and_opcodeMask_eq cw hop]
  · simp [decode_initKeyed_eq_none_iff payload hop, and_opcodeMask_eq cw hop]
  · simp [decode_initParam_eq_none_iff payload hop, and_opcodeMask_eq cw hop]
  · simp [decode_update_eq_none_iff payload hop, and_opcodeMask_eq cw hop]
  · simp [decode_final_eq_none_iff payload hop, and_opcodeMask_eq cw hop]

end Sys2Proof

/-! PROOFS about the commands (spec/41_commands.md): what each INIT, UPDATE and FINAL leaves, whole. -/

namespace Sys2Proof.Machine

/-! ### How a command ends -/

/-- What `raise` does in a known phase, whole (R196). -/
theorem raise_eq_of_phase {s : State} {p : Phase} (hp : s.phase = p) (e : ErrorCode) :
    raise e s = { s with
      kscr := Vector.replicate 128 0
      err := e
      output := some (.response (statusOf p e) []) } :=
  hp ▸ raise_eq e s

theorem statusOf_ready_ok : statusOf .ready .ok = 0x00000010#32 := rfl

theorem statusOf_finalized_ok : statusOf .finalized .ok = 0x00000020#32 := rfl

/-- What an INIT that absorbs no key leaves, whole (R145). -/
theorem returnOk_initFromParam (param : Vector Byte 64) (lastNode : Bool) (s : State) :
    returnOk [] (initFromParam param lastNode s) = { s with
      h := Vector.ofFn fun i : Fin 8 => iv[i] ^^^ paramWord param i
      t0 := 0
      t1 := 0
      f0 := 0
      f1 := 0
      buf := []
      buflen := 0
      lastNode := lastNode
      digestLength := paramDigestLength param
      phase := .ready
      err := .ok
      digest := Vector.replicate 64 0
      digestLen := 0
      ncomp := 0
      output := some (.response 0x00000010#32 []) } := by
  apply State.ext <;> simp [statusOf_ready_ok]

/-! ### INIT_PLAIN -/

section
variable {outlen : Byte}

theorem exec_initPlain_of_legal (hl : 1 ≤ outlen.toNat ∧ outlen.toNat ≤ 64) (s : State) :
    exec (.initPlain outlen) s = .next (returnOk [] (initFromParam (plainParam outlen 0) false s)) :=
  if_pos ((legalOutlen_iff _).2 hl)

theorem exec_initPlain_of_illegal (hl : ¬ (1 ≤ outlen.toNat ∧ outlen.toNat ≤ 64)) (s : State) :
    exec (.initPlain outlen) s = .next (raise .invalidLength s) :=
  if_neg (mt (legalOutlen_iff _).1 hl)

end

/-- Settles O25, by the check of OUTLEN. -/
theorem initPlainResult : Obligations.InitPlainResult := by
  refine fun outlen s => ⟨fun hl => ?_, fun hl => ?_⟩
  · rw [exec_initPlain_of_legal hl, returnOk_initFromParam, paramDigestLength_plainParam]
  · rw [exec_initPlain_of_illegal hl, raise_eq]

/-! ### INIT_KEYED -/

section
variable {outlen : Byte} {key : List Byte}

theorem legalLengths_iff (outlen keylen : Nat) :
    (legalOutlen outlen && legalKeylen keylen) = true ↔ 1 ≤ outlen ∧ outlen ≤ 64 ∧ keylen ≤ 64 := by
  rw [Bool.and_eq_true, legalOutlen_iff, legalKeylen_iff, and_assoc]

theorem exec_initKeyed_of_legal (hl : 1 ≤ outlen.toNat ∧ outlen.toNat ≤ 64 ∧ key.length ≤ 64) (s : State) :
    exec (.initKeyed outlen key) s =
      .next (returnOk [] (if key.length > 0 then absorbKey key (initFromParam (plainParam outlen key.length) false s)
        else initFromParam (plainParam outlen key.length) false s)) :=
  if_pos ((legalLengths_iff _ _).2 hl)

theorem exec_initKeyed_of_illegal (hl : ¬ (1 ≤ outlen.toNat ∧ outlen.toNat ≤ 64 ∧ key.length ≤ 64)) (s : State) :
    exec (.initKeyed outlen key) s = .next (raise .invalidLength s) :=
  if_neg (mt (legalLengths_iff _ _).1 hl)

/-- Padding a key with zeros changes no byte read with default zero. -/
theorem getD_keyBlock (hk : key.length ≤ 128) (a : Nat) : (keyBlock key).toList.getD a 0 = key.getD a 0 := by
  rw [keyBlock_toList hk]
  by_cases ha : a < key.length
  · exact List.getD_append _ _ _ _ ha
  · rw [List.getD_append_right _ _ _ _ (by omega), getD_zeros, List.getD_eq_default _ _ (by omega)]

/-- Absorbing into an initialised state what fits one block only writes it (R149: nothing is compressed). -/
theorem absorb_initFromParam {data : List Byte} (hd : data.length ≤ 128) (param : Vector Byte 64) (lastNode : Bool)
    (s : State) : absorb data (initFromParam param lastNode s) = fill data (initFromParam param lastNode s) := by
  rw [absorb_eq_foldl (absorbed_initFromParam param lastNode s).bufWf (by simp), absorbBytes_fit (by simpa using hd)]

/-- The buffer that holds the key block. -/
def keyBuffer (key : List Byte) : Memory := bufWrite [] 0 (keyBlock key).toList

theorem keyBuffer_wf (key : List Byte) : (keyBuffer key).wf :=
  bufWrite_wf ⟨.nil, by simp⟩ (by simp)

theorem readByte_keyBuffer (hk : key.length ≤ 128) (a : Nat) : readByte (keyBuffer key) a = key.getD a 0 := by
  rw [keyBuffer, readByte_bufWrite ⟨.nil, by simp⟩ (by simp), ← getD_keyBlock hk, Nat.sub_zero]
  split
  · rfl
  · next ha => rw [List.getD_eq_default _ _ (by omega), readByte_nil]

theorem keyBuffer_nil : keyBuffer [] = [] :=
  memory_ext (keyBuffer_wf []) ⟨.nil, by simp⟩ fun a => by simp [readByte_keyBuffer]

/-- What INIT_KEYED with a key leaves, whole: the key block is pending and KSCR is wiped (R149). -/
theorem returnOk_absorbKey_initFromParam (key : List Byte) (param : Vector Byte 64) (lastNode : Bool) (s : State) :
    returnOk [] (absorbKey key (initFromParam param lastNode s)) =
      { returnOk [] (initFromParam param lastNode s) with
        buf := keyBuffer key
        buflen := 128
        kscr := Vector.replicate 128 0 } := by
  rw [returnOk_absorbKey, absorb_initFromParam (by simp)]
  apply State.ext <;> simp [carrying, keyBuffer]

end

/-- Settles O26, by the check of the two lengths and then by whether there is a key. -/
theorem initKeyedResult : Obligations.InitKeyedResult := by
  refine fun outlen key s => ⟨fun hl => ?_, fun hl => ?_⟩
  · refine ⟨keyBuffer key, keyBuffer_wf key, readByte_keyBuffer (by omega), ?_⟩
    rw [exec_initKeyed_of_legal hl]
    cases key with
    | nil => rw [if_neg (by simp), returnOk_initFromParam, paramDigestLength_plainParam, keyBuffer_nil]; rfl
    | cons b rest =>
      rw [if_pos (by simp), returnOk_absorbKey_initFromParam, returnOk_initFromParam, paramDigestLength_plainParam]
      rfl
  · rw [exec_initKeyed_of_illegal hl, raise_eq]

/-! ### INIT_PARAM -/

section
variable {param : Vector Byte 64} (lastNode : Bool) (s : State)

theorem exec_initParam_of_illegal_length
    (hl : ¬ (1 ≤ param[0].toNat ∧ param[0].toNat ≤ 64 ∧ param[1].toNat ≤ 64)) :
    exec (.initParam lastNode param) s = .next (raise .invalidLength s) :=
  if_pos (by rw [Bool.not_eq_true', ← Bool.not_eq_true]; exact mt (legalLengths_iff _ _).1 hl)

/-- With legal lengths the reserved bytes decide (R152). -/
theorem exec_initParam_of_legal_length (hl : 1 ≤ param[0].toNat ∧ param[0].toNat ≤ 64 ∧ param[1].toNat ≤ 64) :
    exec (.initParam lastNode param) s =
      if reservedClear param then .next (returnOk [] (initFromParam param lastNode s))
      else .next (raise .invalidParameterBlock s) := by
  have hl' : (legalOutlen (paramDigestLength param).toNat && legalKeylen (paramKeyLength param).toNat) = true :=
    (legalLengths_iff _ _).2 hl
  simp only [exec, execInitParam, hl']
  cases reservedClear param <;> rfl

end

/-- Settles O28, by the two checks in their order. -/
theorem initParamResult : Obligations.InitParamResult := by
  refine fun lastNode param s => ⟨fun hl hr => ?_, fun hl => ?_, fun hl hr => ?_⟩
  · rw [exec_initParam_of_legal_length lastNode s hl, if_pos ((reservedClear_iff param).2 hr), returnOk_initFromParam]
    rfl
  · rw [exec_initParam_of_illegal_length lastNode s hl, raise_eq]
  · rw [exec_initParam_of_legal_length lastNode s hl, if_neg (mt (reservedClear_iff param).1 hr), raise_eq]

/-! ### UPDATE -/

section
variable {s : State} (data : List Byte)

theorem exec_update_idle (hp : s.phase = .idle) : exec (.update data) s = .next (raise .notInitialized s) := by
  simp only [exec, execUpdate, hp]

theorem exec_update_finalized (hp : s.phase = .finalized) :
    exec (.update data) s = .next (raise .alreadyFinalized s) := by
  simp only [exec, execUpdate, hp]

theorem absorbed_returnOk {h0 : Vector Word 8} {input : List Byte} (hs : Absorbed h0 input s) (bytes : List Byte) :
    Absorbed h0 input (returnOk bytes s) := by
  rw [returnOk_eq_carrying]
  exact absorbed_carrying hs ..

/-- What UPDATE leaves alone in phase Ready (R160). -/
theorem returnOk_absorb_frame (hp : s.phase = .ready) :
    returnOk [] (absorb data s) = { s with
      h := (absorb data s).h
      t0 := (absorb data s).t0
      t1 := (absorb data s).t1
      buf := (absorb data s).buf
      buflen := (absorb data s).buflen
      ncomp := (absorb data s).ncomp
      err := .ok
      output := some (.response 0x00000010#32 []) } := by
  obtain ⟨hf0, hf1, hln, hdl, hphase, -, hdigest, hdigestLen, hkscr, hinbox, -⟩ := sameOutside_absorb data s
  apply State.ext <;> simp [*, statusOf_ready_ok]

end

/-- Settles O30, by phase. -/
theorem updateResult : Obligations.UpdateResult := by
  refine fun data s => ⟨fun h0 input hs => ?_, fun hp => ?_, fun hp => ?_⟩
  · refine ⟨_, exec_update_ready hs.phase data, absorbed_returnOk (absorbed_absorb hs data) [], ?_⟩
    simp only [returnOk_h, returnOk_t0, returnOk_t1, returnOk_buf, returnOk_buflen, returnOk_ncomp]
    exact returnOk_absorb_frame data hs.phase
  · rw [exec_update_idle data hp, raise_eq_of_phase hp]; rfl
  · rw [exec_update_finalized data hp, raise_eq_of_phase hp]; rfl

/-! ### FINAL -/

section
variable {s : State} (outlen : Byte)

theorem exec_final_idle (hp : s.phase = .idle) : exec (.final outlen) s = .next (raise .notInitialized s) := by
  simp only [exec, execFinal, hp]

theorem exec_final_finalized (hp : s.phase = .finalized) :
    exec (.final outlen) s = .next (raise .alreadyFinalized s) := by
  simp only [exec, execFinal, hp]

theorem exec_final_wrong_length (hp : s.phase = .ready) (ho : outlen ≠ s.digestLength) :
    exec (.final outlen) s = .next (raise .invalidLength s) := by
  simp only [exec, execFinal, hp, if_pos ho]

theorem exec_final_ready (hp : s.phase = .ready) (ho : outlen = s.digestLength) :
    exec (.final outlen) s =
      .next (returnOk ((finishDigest outlen.toNat s).digest.toList.take outlen.toNat) (finishDigest outlen.toNat s)) := by
  simp only [exec, execFinal, hp, if_neg (not_not.2 ho)]

end

/-! What a FINAL that passes its checks does to each field. -/

section
variable (n : Nat) (s : State)

theorem finishDigest_h : (finishDigest n s).h =
    compressWords s.h (incrementCounter s.buflen s).t0 (incrementCounter s.buflen s).t1 mask64
      (if s.lastNode then mask64 else s.f1) (bufRead (padBuffer s).buf 0 128) := by simp [finishDigest]
theorem finishDigest_t0 : (finishDigest n s).t0 = (incrementCounter s.buflen s).t0 := by simp [finishDigest]
theorem finishDigest_t1 : (finishDigest n s).t1 = (incrementCounter s.buflen s).t1 := by simp [finishDigest]
@[simp] theorem finishDigest_f0 : (finishDigest n s).f0 = mask64 := by simp [finishDigest]
@[simp] theorem finishDigest_f1 : (finishDigest n s).f1 = if s.lastNode then mask64 else s.f1 := by simp [finishDigest]
@[simp] theorem finishDigest_buf : (finishDigest n s).buf = [] := by simp [finishDigest]
@[simp] theorem finishDigest_buflen : (finishDigest n s).buflen = 0 := by simp [finishDigest]
@[simp] theorem finishDigest_lastNode : (finishDigest n s).lastNode = s.lastNode := by simp [finishDigest]
@[simp] theorem finishDigest_digestLength : (finishDigest n s).digestLength = s.digestLength := by simp [finishDigest]
@[simp] theorem finishDigest_phase : (finishDigest n s).phase = .finalized := by simp [finishDigest]
@[simp] theorem finishDigest_digest : (finishDigest n s).digest = digestRegister (finishDigest n s).h n := by
  simp [finishDigest]
@[simp] theorem finishDigest_digestLen : (finishDigest n s).digestLen = n := by simp [finishDigest]
@[simp] theorem finishDigest_ncomp : (finishDigest n s).ncomp = s.ncomp + 1 := by simp [finishDigest]
@[simp] theorem finishDigest_kscr : (finishDigest n s).kscr = s.kscr := by simp [finishDigest]
@[simp] theorem finishDigest_inbox : (finishDigest n s).inbox = s.inbox := by simp [finishDigest]

end

/-- The digest register holds the digest as far as it goes (R166). -/
theorem take_digestRegister (h : Vector Word 8) (n : Nat) :
    (digestRegister h n).toList.take n = (serialize h).take n := by
  apply List.ext_getElem
  · simp [length_serialize]
  · intro j hj hj'
    have hn : j < n := by rw [List.length_take] at hj; omega
    have hs : j < (serialize h).length := by rw [List.length_take] at hj'; omega
    simp [digestRegister, hn, List.getElem?_eq_getElem hs]

section
variable {h0 : Vector Word 8} {input : List Byte} {s : State} (n : Nat)

/-- FINAL adds the pending bytes to the counter, which then holds the length of the message (R163). -/
theorem absorbed_finalCount (hs : Absorbed h0 input s) :
    (incrementCounter s.buflen s).t0 = countLow input.length ∧
      (incrementCounter s.buflen s).t1 = countHigh input.length := by
  have hle := length_pendingBytes_le input
  have hlen := length_pendingBytes input
  have hl := hs.buflen
  have hsum : 128 * interiorBlocks input.length + s.buflen = input.length := by
    rw [interiorBlocks] at *; omega
  have := incrementCounter_count hs.t0 hs.t1 (k := s.buflen) (by omega)
  rwa [hsum] at this

/-- FINAL leaves what `Finished` says of the bytes absorbed. -/
theorem finished_finishDigest (hs : Absorbed h0 input s) : Finished h0 input (finishDigest n s) := by
  obtain ⟨ht0, ht1⟩ := absorbed_finalCount hs
  have hf1 : (if s.lastNode then mask64 else s.f1) = if s.lastNode then mask64 else 0 := by rw [hs.f1]
  constructor
  case h => rw [finishDigest_h, ht0, ht1, hf1, final_block hs, hs.h, finishDigest_lastNode, finalChain]
  case t0 => rw [finishDigest_t0, ht0]
  case t1 => rw [finishDigest_t1, ht1]
  case ncomp => rw [finishDigest_ncomp, hs.ncomp, BitVec.ofNat_add]; rfl
  case f1 => rw [finishDigest_f1, hf1, finishDigest_lastNode]
  all_goals simp

/-- What a FINAL that succeeds leaves, whole (R163 to R166). -/
theorem returnOk_finishDigest (hs : Absorbed h0 input s) :
    returnOk ((finishDigest n s).digest.toList.take n) (finishDigest n s) = { s with
      h := finalChain h0 s.lastNode input
      t0 := countLow input.length
      t1 := countHigh input.length
      f0 := mask64
      f1 := if s.lastNode then mask64 else 0
      buf := []
      buflen := 0
      phase := .finalized
      err := .ok
      digest := digestRegister (finalChain h0 s.lastNode input) n
      digestLen := n
      ncomp := BitVec.ofNat 64 (interiorBlocks input.length + 1)
      output := some (.response 0x00000020#32 ((serialize (finalChain h0 s.lastNode input)).take n)) } := by
  obtain ⟨hphase, hf0, hf1, hh, ht0, ht1, hncomp, hbuflen, hbuf⟩ := finished_finishDigest n hs
  rw [finishDigest_lastNode] at hf1 hh
  apply State.ext
  case output => rw [returnOk_output, hphase, finishDigest_digest, hh, take_digestRegister, statusOf_finalized_ok]
  case ncomp => rw [returnOk_ncomp, hncomp]
  case f1 => rw [returnOk_f1, hf1]
  all_goals simp [hh, ht0, ht1]

end

/-- Settles O35, by phase and, in phase Ready, by OUTLEN. -/
theorem finalResult : Obligations.FinalResult := by
  refine fun outlen s => ⟨fun h0 input hs ho => ?_, fun hp => ?_, fun hp => ?_, fun hp ho => ?_⟩
  · rw [exec_final_ready outlen hs.phase ho, returnOk_finishDigest outlen.toNat hs]
    rfl
  · rw [exec_final_idle outlen hp, raise_eq_of_phase hp]; rfl
  · rw [exec_final_finalized outlen hp, raise_eq_of_phase hp]; rfl
  · rw [exec_final_wrong_length outlen hp ho, raise_eq_of_phase hp]; rfl

end Sys2Proof.Machine

/-! PROOFS about the errors (spec/60_exceptions.md): which error each command leaves, in the order of the checks. -/

namespace Sys2Proof.Machine

/-- The outcome is a next state whose `err` is `e`. -/
def LeavesErr (r : Host.Outcome State Fault Refusal) (e : ErrorCode) : Prop :=
  ∃ u, r = .next u ∧ u.err = e

theorem leavesErr_raise (e : ErrorCode) (s : State) : LeavesErr (.next (raise e s)) e :=
  ⟨_, rfl, raise_err e s⟩

theorem leavesErr_returnOk (bytes : List Byte) (s : State) : LeavesErr (.next (returnOk bytes s)) .ok :=
  ⟨_, rfl, returnOk_err bytes s⟩

/-! ### The error of each command -/

section
variable (s : State)

theorem exec_initPlain_leavesErr (outlen : Byte) :
    LeavesErr (exec (.initPlain outlen) s)
      (if 1 ≤ outlen.toNat ∧ outlen.toNat ≤ 64 then .ok else .invalidLength) := by
  split
  · next hl => exact exec_initPlain_of_legal hl s ▸ leavesErr_returnOk ..
  · next hl => exact exec_initPlain_of_illegal hl s ▸ leavesErr_raise ..

theorem exec_initKeyed_leavesErr (outlen : Byte) (key : List Byte) :
    LeavesErr (exec (.initKeyed outlen key) s)
      (if 1 ≤ outlen.toNat ∧ outlen.toNat ≤ 64 ∧ key.length ≤ 64 then .ok else .invalidLength) := by
  split
  · next hl => exact exec_initKeyed_of_legal hl s ▸ leavesErr_returnOk ..
  · next hl => exact exec_initKeyed_of_illegal hl s ▸ leavesErr_raise ..

/-- The check of R152 fails exactly when some reserved byte is nonzero. -/
theorem reserved_ne_zero_iff (param : Vector Byte 64) :
    (∃ k : Fin 64, 18 ≤ k.val ∧ k.val < 32 ∧ param[k] ≠ 0) ↔ ¬ reservedClear param = true := by
  simp only [reservedClear_iff, not_forall, exists_prop]

/-- Of a parameter block the lengths are checked before the reserved bytes (R197). -/
theorem exec_initParam_leavesErr (lastNode : Bool) (param : Vector Byte 64) :
    LeavesErr (exec (.initParam lastNode param) s)
      (if ¬ (1 ≤ param[0].toNat ∧ param[0].toNat ≤ 64 ∧ param[1].toNat ≤ 64) then .invalidLength
        else if ∃ k : Fin 64, 18 ≤ k.val ∧ k.val < 32 ∧ param[k] ≠ 0 then .invalidParameterBlock
        else .ok) := by
  split
  · next hl => exact exec_initParam_of_illegal_length lastNode s hl ▸ leavesErr_raise ..
  · next hl =>
    rw [exec_initParam_of_legal_length lastNode s (not_not.1 hl)]
    by_cases hr : reservedClear param = true
    · rw [if_pos hr, if_neg (mt (reserved_ne_zero_iff param).1 (not_not.2 hr))]
      exact leavesErr_returnOk ..
    · rw [if_neg hr, if_pos ((reserved_ne_zero_iff param).2 hr)]
      exact leavesErr_raise ..

theorem exec_update_leavesErr (data : List Byte) :
    LeavesErr (exec (.update data) s)
      (match s.phase with
      | .idle => .notInitialized
      | .finalized => .alreadyFinalized
      | .ready => .ok) := by
  split
  · next hp => exact exec_update_idle data hp ▸ leavesErr_raise ..
  · next hp => exact exec_update_finalized data hp ▸ leavesErr_raise ..
  · next hp => exact exec_update_ready hp data ▸ leavesErr_returnOk ..

/-- The phase is checked before OUTLEN (R197). -/
theorem exec_final_leavesErr (outlen : Byte) :
    LeavesErr (exec (.final outlen) s)
      (match s.phase with
      | .idle => .notInitialized
      | .finalized => .alreadyFinalized
      | .ready => if outlen ≠ s.digestLength then .invalidLength else .ok) := by
  split
  · next hp => exact exec_final_idle outlen hp ▸ leavesErr_raise ..
  · next hp => exact exec_final_finalized outlen hp ▸ leavesErr_raise ..
  · next hp =>
    split
    · next ho => exact exec_final_wrong_length outlen hp ho ▸ leavesErr_raise ..
    · next ho => exact exec_final_ready outlen hp (not_not.1 ho) ▸ leavesErr_returnOk ..

end

/-- Settles O38: an illegal transaction raises its error, and every other one leaves the error of its command. -/
theorem errorCodesFollowThePriority : Obligations.ErrorCodesFollowThePriority := by
  intro s tx rest hin
  cases hd : decode tx.cw tx.payload with
  | none => exact step_of_illegal hin hd ▸ leavesErr_raise ..
  | some i =>
    rw [step_of_decoded hin hd]
    cases i with
    | initPlain outlen => exact exec_initPlain_leavesErr s.taken outlen
    | initKeyed outlen key => exact exec_initKeyed_leavesErr s.taken outlen key
    | initParam lastNode param => exact exec_initParam_leavesErr s.taken lastNode param
    | update data => exact exec_update_leavesErr s.taken data
    | final outlen => exact exec_final_leavesErr s.taken outlen

end Sys2Proof.Machine

/-! PROOFS about the encoding (spec/30_encoding.md): the codec of the commands in both directions, and transactions as
bytes. -/

namespace Sys2Proof

/-! ### The command word of each command, by its fields -/

section
variable {cw : CommandWord}

theorem outlenField_toNat (cw : CommandWord) : (outlenField cw).toNat = cw.toNat / 256 % 256 :=
  field_toNat cw 8 8

theorem keylenField_toNat_eq (cw : CommandWord) : (keylenField cw).toNat = cw.toNat / 65536 % 256 :=
  field_toNat cw 16 8

theorem lenField_toNat_eq (cw : CommandWord) : (lenField cw).toNat = cw.toNat / 256 % 16777216 :=
  field_toNat cw 8 24

theorem lastNodeField_toNat (cw : CommandWord) : (lastNodeField cw).toNat = cw.toNat / 16 % 2 := by
  rw [lastNodeField, BitVec.getLsbD, Nat.toNat_testBit]

/-- INIT_PLAIN's word and no other has its opcode, zero reserved bits and its OUTLEN (R72). -/
theorem eq_encodeWord_initPlain_iff (o : Byte) :
    cw = encodeWord (.initPlain o) ↔
      opcodeField cw = 1 ∧ ¬ (cw.extractLsb' 4 4 ≠ 0 ∨ cw.extractLsb' 16 16 ≠ 0) ∧ outlenField cw = o := by
  have hcw := cw.isLt
  have ho := o.isLt
  rw [not_or, not_not, not_not, BitVec.toNat_eq, encodeWord_initPlain_toNat, opcodeField_eq, field_eq_zero_iff,
    field_eq_zero_iff, BitVec.toNat_eq, outlenField_toNat]
  omega

theorem eq_encodeWord_initKeyed_iff (o : Byte) {key : List Byte} (hk : key.length ≤ 255) :
    cw = encodeWord (.initKeyed o key) ↔
      opcodeField cw = 2 ∧ ¬ (cw.extractLsb' 4 4 ≠ 0 ∨ cw.extractLsb' 24 8 ≠ 0) ∧ outlenField cw = o ∧
        key.length = (keylenField cw).toNat := by
  have hcw := cw.isLt
  have ho := o.isLt
  rw [not_or, not_not, not_not, BitVec.toNat_eq, encodeWord_initKeyed_toNat o hk, opcodeField_eq, field_eq_zero_iff,
    field_eq_zero_iff, BitVec.toNat_eq, outlenField_toNat, keylenField_toNat_eq]
  omega

theorem eq_encodeWord_initParam_iff (lastNode : Bool) (param : Vector Byte 64) :
    cw = encodeWord (.initParam lastNode param) ↔
      opcodeField cw = 3 ∧ ¬ cw.extractLsb' 5 27 ≠ 0 ∧ lastNodeField cw = lastNode := by
  have hcw := cw.isLt
  have hln := lastNode.toNat_lt
  have hfield : Function.Injective Bool.toNat := by decide
  rw [not_not, BitVec.toNat_eq, encodeWord_initParam_toNat, opcodeField_eq, field_eq_zero_iff, ← hfield.eq_iff,
    lastNodeField_toNat]
  omega

theorem eq_encodeWord_update_iff {data : List Byte} (hd : data.length ≤ 16777215) :
    cw = encodeWord (.update data) ↔
      opcodeField cw = 4 ∧ ¬ cw.extractLsb' 4 4 ≠ 0 ∧ data.length = (lenField cw).toNat := by
  have hcw := cw.isLt
  rw [not_not, BitVec.toNat_eq, encodeWord_update_toNat hd, opcodeField_eq, field_eq_zero_iff, lenField_toNat_eq]
  omega

theorem eq_encodeWord_final_iff (o : Byte) :
    cw = encodeWord (.final o) ↔
      opcodeField cw = 5 ∧ ¬ (cw.extractLsb' 4 4 ≠ 0 ∨ cw.extractLsb' 16 16 ≠ 0) ∧ outlenField cw = o := by
  have hcw := cw.isLt
  have ho := o.isLt
  rw [not_or, not_not, not_not, BitVec.toNat_eq, encodeWord_final_toNat, opcodeField_eq, field_eq_zero_iff,
    field_eq_zero_iff, BitVec.toNat_eq, outlenField_toNat]
  omega

end

/-! ### What `decode` accepts, by opcode -/

section
variable {cw : CommandWord} {payload : List Byte} {i : Instr}

/-- Two checks one after the other accept exactly when both hold. -/
theorem checks_eq_some_iff {α : Type} {reserved length : Prop} [Decidable reserved] [Decidable length]
    (f : length → α) (a : α) :
    (if reserved then none else if hl : length then some (f hl) else none) = some a ↔
      ¬ reserved ∧ ∃ hl, f hl = a := by
  by_cases hr : reserved <;> by_cases hl : length <;> simp [hr, hl]

theorem decode_initPlain_eq_some_iff (h : opcodeField cw = 1) :
    decode cw payload = some i ↔ ¬ (cw.extractLsb' 4 4 ≠ 0 ∨ cw.extractLsb' 16 16 ≠ 0) ∧
      ∃ _ : payload.length = 0, Instr.initPlain (outlenField cw) = i := by
  rw [decode, h]
  exact checks_eq_some_iff _ i

theorem decode_initKeyed_eq_some_iff (h : opcodeField cw = 2) :
    decode cw payload = some i ↔ ¬ (cw.extractLsb' 4 4 ≠ 0 ∨ cw.extractLsb' 24 8 ≠ 0) ∧
      ∃ _ : payload.length = (keylenField cw).toNat, Instr.initKeyed (outlenField cw) payload = i := by
  rw [decode, h]
  exact checks_eq_some_iff _ i

theorem decode_initParam_eq_some_iff (h : opcodeField cw = 3) :
    decode cw payload = some i ↔ ¬ cw.extractLsb' 5 27 ≠ 0 ∧
      ∃ hl : payload.length = 64, Instr.initParam (lastNodeField cw) (paramOfPayload payload hl) = i := by
  rw [decode, h]
  exact checks_eq_some_iff _ i

theorem decode_update_eq_some_iff (h : opcodeField cw = 4) :
    decode cw payload = some i ↔ ¬ cw.extractLsb' 4 4 ≠ 0 ∧
      ∃ _ : payload.length = (lenField cw).toNat, Instr.update payload = i := by
  rw [decode, h]
  exact checks_eq_some_iff _ i

theorem decode_final_eq_some_iff (h : opcodeField cw = 5) :
    decode cw payload = some i ↔ ¬ (cw.extractLsb' 4 4 ≠ 0 ∨ cw.extractLsb' 16 16 ≠ 0) ∧
      ∃ _ : payload.length = 0, Instr.final (outlenField cw) = i := by
  rw [decode, h]
  exact checks_eq_some_iff _ i

end

/-! ### The two directions -/

theorem toList_paramOfPayload {payload : List Byte} (len : payload.length = 64) :
    (paramOfPayload payload len).toList = payload := by
  simp [paramOfPayload]

theorem paramOfPayload_toList (param : Vector Byte 64) :
    paramOfPayload param.toList param.length_toList = param :=
  Vector.toList_inj.1 (toList_paramOfPayload _)

/-- Settles O8: the word of each command has the command's opcode, clear reserved bits and the operands as fields. -/
theorem decodeInvertsEncode : Obligations.DecodeInvertsEncode := by
  intro i hw
  cases i with
  | initPlain o =>
    obtain ⟨hop, hres, ho⟩ := (eq_encodeWord_initPlain_iff o).1 rfl
    exact (decode_initPlain_eq_some_iff hop).2 ⟨hres, rfl, congrArg _ ho⟩
  | initKeyed o key =>
    obtain ⟨hop, hres, ho, hlen⟩ := (eq_encodeWord_initKeyed_iff o (of_decide_eq_true hw)).1 rfl
    exact (decode_initKeyed_eq_some_iff hop).2 ⟨hres, hlen, congrArg (Instr.initKeyed · key) ho⟩
  | initParam lastNode param =>
    obtain ⟨hop, hres, hln⟩ := (eq_encodeWord_initParam_iff lastNode param).1 rfl
    exact (decode_initParam_eq_some_iff hop).2
      ⟨hres, param.length_toList, congrArg₂ Instr.initParam hln (paramOfPayload_toList param)⟩
  | update data =>
    obtain ⟨hop, hres, hlen⟩ := (eq_encodeWord_update_iff (of_decide_eq_true hw)).1 rfl
    exact (decode_update_eq_some_iff hop).2 ⟨hres, hlen, rfl⟩
  | final o =>
    obtain ⟨hop, hres, ho⟩ := (eq_encodeWord_final_iff o).1 rfl
    exact (decode_final_eq_some_iff hop).2 ⟨hres, rfl, congrArg _ ho⟩

/-- Settles O9: by opcode, the checks `decode` made say what the command word is and how long the payload. -/
theorem encodeInvertsDecode : Obligations.EncodeInvertsDecode := by
  intro cw payload i h
  have hcases : (opcodeField cw = 0 ∨ 6 ≤ opcodeField cw) ∨ opcodeField cw = 1 ∨ opcodeField cw = 2 ∨
      opcodeField cw = 3 ∨ opcodeField cw = 4 ∨ opcodeField cw = 5 := by omega
  obtain hop | hop | hop | hop | hop | hop := hcases
  · cases (decode_eq_none_of_reserved_opcode payload hop).symm.trans h
  · obtain ⟨hres, hlen, rfl⟩ := (decode_initPlain_eq_some_iff hop).1 h
    rw [encode, ← (eq_encodeWord_initPlain_iff _).2 ⟨hop, hres, rfl⟩, List.eq_nil_of_length_eq_zero hlen]
    exact ⟨rfl, rfl⟩
  · obtain ⟨hres, hlen, rfl⟩ := (decode_initKeyed_eq_some_iff hop).1 h
    have hk : payload.length ≤ 255 := by have := (keylenField cw).isLt; omega
    rw [encode, ← (eq_encodeWord_initKeyed_iff _ hk).2 ⟨hop, hres, rfl, hlen⟩]
    exact ⟨rfl, decide_eq_true hk⟩
  · obtain ⟨hres, hlen, rfl⟩ := (decode_initParam_eq_some_iff hop).1 h
    rw [encode, ← (eq_encodeWord_initParam_iff _ _).2 ⟨hop, hres, rfl⟩, encodePayload, toList_paramOfPayload]
    exact ⟨rfl, rfl⟩
  · obtain ⟨hres, hlen, rfl⟩ := (decode_update_eq_some_iff hop).1 h
    have hd : payload.length ≤ 16777215 := by have := (lenField cw).isLt; omega
    rw [encode, ← (eq_encodeWord_update_iff hd).2 ⟨hop, hres, hlen⟩]
    exact ⟨rfl, decide_eq_true hd⟩
  · obtain ⟨hres, hlen, rfl⟩ := (decode_final_eq_some_iff hop).1 h
    rw [encode, ← (eq_encodeWord_final_iff _).2 ⟨hop, hres, rfl⟩, List.eq_nil_of_length_eq_zero hlen]
    exact ⟨rfl, rfl⟩

/-! ### Transactions as bytes -/

/-- The command word announces how long the payload is (R71). -/
theorem payloadLength_encodeWord {i : Instr} (hw : i.wellFormed = true) :
    payloadLength (encodeWord i) = some (encodePayload i).length := by
  cases i with
  | initPlain o => exact Laws.PayloadLengthFits.initPlain o hw
  | initKeyed o key => exact Laws.PayloadLengthFits.initKeyed o key hw
  | initParam lastNode param => exact Laws.PayloadLengthFits.initParam lastNode param hw
  | update data => exact Laws.PayloadLengthFits.update data hw
  | final o => exact Laws.PayloadLengthFits.final o hw

/-- The first four bytes of a transaction are its command word (R52). -/
theorem ofNat_littleEndian_littleEndianBytes (cw : CommandWord) :
    BitVec.ofNat 32 (Machine.littleEndian (Machine.littleEndianBytes 4 cw)) = cw := by
  rw [Machine.littleEndian_littleEndianBytes, show 256 ^ 4 = 2 ^ 32 from rfl, Nat.mod_eq_of_lt cw.isLt,
    BitVec.ofNat_toNat, BitVec.setWidth_eq]

/-- Settles O12: the reader cuts at 4 and at PLEN, finds the command word and the payload, and decodes them. -/
theorem byteStreamIsSplitAtTransactions : Obligations.ByteStreamIsSplitAtTransactions := by
  intro i rest hw
  have hplen := payloadLength_encodeWord hw
  have hcw : (Machine.littleEndianBytes 4 (encodeWord i)).length = 4 := Machine.length_littleEndianBytes 4 _
  refine ⟨⟨_, hplen, by simp [Transaction.bytes, encode, hcw]⟩, ?_⟩
  have htake : ((encode i).bytes ++ rest).take 4 = Machine.littleEndianBytes 4 (encodeWord i) := by
    rw [Transaction.bytes, List.append_assoc]
    exact List.take_left' hcw
  have hdrop : ((encode i).bytes ++ rest).drop 4 = encodePayload i ++ rest := by
    rw [Transaction.bytes, List.append_assoc]
    exact List.drop_left' hcw
  have hdecode : decode (encodeWord i) (encodePayload i) = some i := decodeInvertsEncode i hw
  simp only [decodeBytes, htake, hdrop, ofNat_littleEndian_littleEndianBytes, hplen]
  rw [if_neg (by simp [Transaction.bytes, encode, hcw]), if_neg (by simp), List.take_left, List.drop_left, hdecode]
  rfl

/-! ### The examples of the spec, and the assembler -/

theorem decode_of_encode {i : Instr} {cw : CommandWord} {payload : List Byte} (hw : i.wellFormed = true)
    (h : encode i = ⟨cw, payload⟩) : decode cw payload = some i := by
  have := decodeInvertsEncode i hw
  rwa [h] at this

theorem length_range_bytes (a b : Nat) : (Machine.ByteLiteral.range a b).bytes.length = b - a := by
  simp [Machine.ByteLiteral.bytes]

theorem encodeWord_initKeyed_range :
    encodeWord (.initKeyed 64 (Machine.ByteLiteral.range 0 64).bytes) = 0x00404002 := by
  rw [encodeWord, length_range_bytes]
  rfl

theorem encodeWord_update_range : encodeWord (.update (Machine.ByteLiteral.range 0 128).bytes) = 0x00008004 := by
  rw [encodeWord, length_range_bytes]
  rfl

/-- Settles O11: each row is the encoding of its command. -/
theorem exampleWordsDecode : Obligations.ExampleWordsDecode :=
  ⟨decode_of_encode rfl rfl, decode_of_encode rfl rfl,
    decode_of_encode (by simp [Instr.wellFormed, length_range_bytes])
      (congrArg (Transaction.mk · _) encodeWord_initKeyed_range),
    decode_of_encode rfl rfl, fun _ => decode_of_encode rfl rfl, fun _ => decode_of_encode rfl rfl,
    decode_of_encode rfl rfl,
    decode_of_encode (by simp [Instr.wellFormed, length_range_bytes])
      (congrArg (Transaction.mk · _) encodeWord_update_range),
    decode_of_encode rfl rfl, decode_of_encode rfl rfl, decode_of_encode rfl rfl⟩

theorem getD_range_bytes (a b : Nat) {k : Nat} (hk : k < b - a) :
    ((Machine.ByteLiteral.range a b).bytes.getD k 0).toNat = (a + k) % 256 := by
  rw [List.getD_eq_getElem _ _ (by rwa [length_range_bytes])]
  simp [Machine.ByteLiteral.bytes]

/-- Settles O13: the fields of the assembled word, by `eq_encodeWord_initKeyed_iff` and `eq_encodeWord_update_iff`. -/
theorem assemblerSetsTheLengths : Obligations.AssemblerSetsTheLengths := by
  refine ⟨fun n key hn hkey => ?_, fun data hd => ?_, fun param ln hp => dif_neg hp, fun a b =>
    ⟨length_range_bytes a b, fun k hk => getD_range_bytes a b hk⟩⟩
  · obtain ⟨-, -, ho, hlen⟩ := (eq_encodeWord_initKeyed_iff (BitVec.ofNat 8 n) hkey).1 rfl
    refine ⟨_, if_pos ⟨by omega, hkey⟩, rfl, ?_, hlen.symm⟩
    rw [ho, BitVec.toNat_ofNat]
    omega
  · obtain ⟨-, -, hlen⟩ := (eq_encodeWord_update_iff hd).1 rfl
    exact ⟨_, if_pos hd, rfl, hlen.symm⟩

end Sys2Proof

/-! PROOFS about the step (spec/00_scope.md R7, spec/20_memory.md R64, spec/60_exceptions.md,
spec/70_reset_and_hazards.md): what it takes, that it always answers, what an error leaves alone, and the invariant
every step keeps. -/

namespace Sys2Proof.Machine

/-! ### What a step takes -/

theorem State.taken_of_inbox {s : State} {e : HostEvent} {rest : List HostEvent} (hin : s.inbox = e :: rest) :
    s.taken = { s with inbox := rest, output := none } := by
  rw [State.taken, hin, List.tail_cons]

/-- Settles O2: the state `exec` runs on is the one with the event taken. -/
theorem stepRunsTheDecodedCommand : Obligations.StepRunsTheDecodedCommand :=
  fun _ _ _ _ hin hd => State.taken_of_inbox hin ▸ step_of_decoded hin hd

/-- Settles O4: an empty queue is the first case of the step. -/
theorem nothingIssuedHoldsTheState : Obligations.NothingIssuedHoldsTheState :=
  fun _ hin => step_of_inbox_nil hin

/-- Settles O1: the reset state element by element, and the step that takes either reset. -/
theorem resetSetsEveryElement : Obligations.ResetSetsEveryElement := by
  refine ⟨⟨fun i => Vector.getElem_replicate i.isLt, rfl, rfl, rfl, rfl, readByte_nil, rfl, rfl, rfl, rfl, rfl,
    fun j => Vector.getElem_replicate j.isLt, rfl, rfl, fun j => Vector.getElem_replicate j.isLt, rfl⟩,
    fun s rest hin => ?_⟩
  rw [step_of_resetNext (s.resetNext_eq_true_iff.2 ⟨rest, hin⟩), resetEngine]
  obtain hin | ⟨tx, hin⟩ := hin <;> rw [State.taken_of_inbox hin]

theorem carrying_inbox (e : ErrorCode) (k : Vector Byte 128) (o : Option HostOutput) (s : State) :
    (carrying e k o s).inbox = s.inbox := rfl

theorem absorbKey_inbox (key : List Byte) (s : State) : (absorbKey key s).inbox = s.inbox := by
  rw [absorbKey_eq, carrying_inbox, (sameOutside_absorb _ s).inbox]

/-- A command takes nothing from the queue and adds nothing to it. -/
theorem exec_inbox {i : Instr} {s t : State} (h : exec i s = .next t) : t.inbox = s.inbox := by
  obtain ⟨_, -, rfl⟩ | ⟨_, -, -, rfl⟩ | ⟨_, key, -, -, -, rfl⟩ | ⟨_, _, -, -, -, -, rfl⟩ | ⟨data, -, -, rfl⟩ |
    ⟨_, -, -, -, rfl⟩ := exec_cases h
  · exact raise_inbox ..
  · rw [returnOk_inbox, initFromParam_inbox]
  · rw [returnOk_inbox]
    split
    · rw [absorbKey_inbox, initFromParam_inbox]
    · exact initFromParam_inbox ..
  · rw [returnOk_inbox, initFromParam_inbox]
  · rw [returnOk_inbox, (sameOutside_absorb data s).inbox]
  · rw [returnOk_inbox, finishDigest_inbox]

theorem handleEvent_inbox {e : HostEvent} {s t : State} (h : handleEvent e s = .next t) : t.inbox = s.inbox := by
  cases e with
  | command tx =>
    simp only [handleEvent, execute] at h
    split at h
    · cases h
      exact raise_inbox ..
    · exact exec_inbox h
  | read offset size => cases h; rfl
  | write offset data => cases h; rfl
  | reset => cases h; rfl
  | resetDuring tx => cases h; rfl

/-- Settles O5: carrying out an event leaves the rest of the queue alone. -/
theorem eventsAreTakenInIssueOrder : Obligations.EventsAreTakenInIssueOrder := by
  intro s e rest t hin h
  rw [handleEvent_inbox ((step_of_inbox_cons hin).symm.trans h), State.taken_of_inbox hin]

/-! ### The step is total -/

theorem step_total (s : State) : ∃ t, step s = .next t := by
  cases hin : s.inbox with
  | nil => exact ⟨s, step_of_inbox_nil hin⟩
  | cons e rest =>
    rw [step_of_inbox_cons hin]
    cases e with
    | command tx =>
      obtain ⟨u, hu, -⟩ := errorCodesFollowThePriority s tx rest hin
      exact ⟨u, (step_of_inbox_cons hin).symm.trans hu⟩
    | read offset size => exact ⟨_, rfl⟩
    | write offset data => exact ⟨_, rfl⟩
    | reset => exact ⟨_, rfl⟩
    | resetDuring tx => exact ⟨_, rfl⟩

/-- Settles O6: the step is total, and what it returns for a transaction is the response of R87. -/
theorem everyStepAnswersNext : Obligations.EveryStepAnswersNext := by
  intro s
  obtain ⟨t, ht⟩ := step_total s
  exact ⟨t, ht, fun tx rest hin => ⟨_, _, responseIsStatusAndDigest s tx rest t hin ht⟩⟩

/-- Settles O45: only entry `k` of the list of engines is set. -/
theorem enginesAreIndependent : Obligations.EnginesAreIndependent := by
  intro k engines after h
  unfold stepEngine at h
  split at h
  · next hk =>
    cases h
    exact ⟨rfl, fun _ _ => rfl, fun s hs => by cases hk.symm.trans hs⟩
  · next s hk =>
    obtain ⟨t, ht⟩ := step_total s
    rw [ht] at h
    cases h
    refine ⟨List.length_set, fun j hj => List.getElem?_set_ne (Ne.symm hj), fun s' hs' => ?_⟩
    cases hk.symm.trans hs'
    exact ⟨t, ht, List.getElem?_set_self (List.getElem?_eq_some_iff.1 hk).1⟩

/-! ### Errors -/

/-- `raise` on the state with the event taken, whole (R196). -/
theorem raise_taken {s : State} {e : HostEvent} {rest : List HostEvent} (hin : s.inbox = e :: rest)
    (code : ErrorCode) :
    raise code s.taken = { s with
      inbox := rest
      kscr := Vector.replicate 128 0
      err := code
      output := some (.response (statusOf s.phase code) []) } := by
  rw [raise_eq, State.taken_of_inbox hin]

/-- Settles O3: an illegal transaction is `raise` of IllegalCommand. -/
theorem illegalTransactionOnlySetsErr : Obligations.IllegalTransactionOnlySetsErr :=
  fun _ _ _ hin hd => raise_taken hin _ ▸ step_of_illegal hin hd

/-- Settles O37: an illegal transaction raises its error, and a command that leaves an error is `raise` of it. -/
theorem errorsArePrecise : Obligations.ErrorsArePrecise := by
  intro s tx rest t hin h he
  rw [← raise_taken hin]
  cases hd : decode tx.cw tx.payload with
  | none =>
    cases (step_of_illegal hin hd).symm.trans h
    rw [raise_err]
  | some i => exact exec_eq_raise_of_err_ne_ok ((step_of_decoded hin hd).symm.trans h) he

/-! ### The invariant -/

/-- Settles O41: nothing is initialised, held or returned. -/
theorem resetIsSafe : Obligations.ResetIsSafe where
  bufWf := ⟨.nil, by simp [State.reset]⟩
  buflen := Nat.zero_le _
  tailZero := fun a _ => readByte_nil a
  kscr := rfl
  digestLength := fun hp => absurd rfl hp
  flags := ⟨.inl rfl, .inl rfl⟩
  idle := fun _ => ⟨rfl, rfl, rfl, rfl, rfl, rfl, rfl, rfl, rfl⟩
  ready := nofun
  finished := nofun
  digestLen := rfl
  digest := (digestRegister_zero _).symm

section
variable {s t : State}

theorem safe_taken (hs : Safe s) : Safe s.taken := safe_of_same hs hs.kscr rfl

theorem safe_raise (hs : Safe s) (e : ErrorCode) : Safe (raise e s) :=
  safe_of_same hs (raise_kscr e s) (by rw [raise_eq])

theorem safe_returnOk (hs : Safe s) (bytes : List Byte) : Safe (returnOk bytes s) :=
  safe_of_same hs ((returnOk_kscr bytes s).trans hs.kscr) (by rw [returnOk_eq_carrying]; rfl)

theorem safe_carrying (hs : Safe s) (e : ErrorCode) (o : Option HostOutput) :
    Safe (carrying e (Vector.replicate 128 0) o s) :=
  safe_of_same hs rfl rfl

theorem safe_resetEngine (s : State) : Safe (resetEngine s) := safe_of_same resetIsSafe rfl rfl

/-- An INIT with a legal digest length leaves a safe state (R145). -/
theorem safe_initFromParam (hk : s.kscr = Vector.replicate 128 0) {param : Vector Byte 64}
    (hl : legalOutlen (paramDigestLength param).toNat = true) (lastNode : Bool) :
    Safe (initFromParam param lastNode s) :=
  safe_of_absorbed (absorbed_initFromParam param lastNode s) ((initFromParam_kscr ..).trans hk)
    ((legalOutlen_iff _).1 hl) rfl rfl

/-- Absorbing keeps a safe state in phase Ready safe (R42). -/
theorem safe_absorb (hs : Safe s) (hp : s.phase = .ready) (data : List Byte) : Safe (absorb data s) := by
  obtain ⟨h0, input, ha⟩ := hs.ready hp
  have ho := sameOutside_absorb data s
  have hlen : s.digestLen = 0 := by rw [hs.digestLen, hp]; rfl
  refine safe_of_absorbed (absorbed_absorb ha data) (ho.kscr.trans hs.kscr) ?_ (ho.digestLen.trans hlen) ?_
  · rw [ho.digestLength]
    exact hs.digestLength (by rw [hp]; decide)
  · rw [ho.digest, hs.digest, hlen, digestRegister_zero]

theorem safe_absorbKey (hs : Safe s) (hp : s.phase = .ready) (key : List Byte) : Safe (absorbKey key s) := by
  rw [absorbKey_eq]
  exact safe_carrying (safe_absorb hs hp _) _ _

/-- FINAL with the digest length fixed at init keeps a safe state safe (R41, R43, R166). -/
theorem safe_finishDigest (hs : Safe s) (hp : s.phase = .ready) : Safe (finishDigest s.digestLength.toNat s) := by
  obtain ⟨h0, input, ha⟩ := hs.ready hp
  have hf := finished_finishDigest s.digestLength.toNat ha
  have hphase := hf.phase
  constructor
  case bufWf => rw [hf.buf]; exact resetIsSafe.bufWf
  case buflen => rw [hf.buflen]; exact Nat.zero_le _
  case tailZero => exact fun a _ => by rw [hf.buf, readByte_nil]
  case kscr => rw [finishDigest_kscr, hs.kscr]
  case digestLength =>
    rw [finishDigest_digestLength]
    exact fun _ => hs.digestLength (by rw [hp]; decide)
  case flags =>
    rw [hf.f0, hf.f1]
    exact ⟨.inr rfl, by split <;> simp⟩
  case idle => exact fun h => by cases hphase.symm.trans h
  case ready => exact fun h => by cases hphase.symm.trans h
  case finished => exact fun _ => ⟨h0, input, hf⟩
  case digestLen => rw [finishDigest_digestLen, finishDigest_digestLength, if_pos hphase]
  case digest => rw [finishDigest_digest, finishDigest_digestLen]

/-- Every command keeps the invariant. -/
theorem safe_exec {i : Instr} (hs : Safe s) (h : exec i s = .next t) : Safe t := by
  obtain ⟨e, -, rfl⟩ | ⟨o, -, ho, rfl⟩ | ⟨o, key, -, ho, -, rfl⟩ | ⟨ln, p, -, hl, -, -, rfl⟩ | ⟨data, -, hp, rfl⟩ |
    ⟨_, -, hp, rfl, rfl⟩ := exec_cases h
  · exact safe_raise hs e
  · exact safe_returnOk (safe_initFromParam hs.kscr (by rwa [paramDigestLength_plainParam]) false) _
  · have hinit : Safe (initFromParam (plainParam o key.length) false s) :=
      safe_initFromParam hs.kscr (by rwa [paramDigestLength_plainParam]) false
    refine safe_returnOk ?_ _
    split
    · exact safe_absorbKey hinit rfl key
    · exact hinit
  · exact safe_returnOk (safe_initFromParam hs.kscr hl ln) _
  · exact safe_returnOk (safe_absorb hs hp data) _
  · exact safe_returnOk (safe_finishDigest hs hp) _

/-- Every event keeps it. -/
theorem safe_handleEvent {e : HostEvent} (hs : Safe s) (h : handleEvent e s = .next t) : Safe t := by
  cases e with
  | command tx =>
    simp only [handleEvent, execute] at h
    split at h
    · cases h
      exact safe_raise hs _
    · exact safe_exec hs h
  | read offset size => cases h; exact safe_of_same hs hs.kscr rfl
  | write offset data => cases h; exact hs
  | reset => cases h; exact safe_resetEngine s
  | resetDuring tx => cases h; exact safe_resetEngine s

end

/-- Settles O42: taking the event keeps the invariant, and so does carrying it out. -/
theorem everyStepKeepsSafe : Obligations.EveryStepKeepsSafe := by
  intro s t hs h
  cases hin : s.inbox with
  | nil =>
    cases (step_of_inbox_nil hin).symm.trans h
    exact hs
  | cons e rest => exact safe_handleEvent (safe_taken hs) ((step_of_inbox_cons hin).symm.trans h)

end Sys2Proof.Machine

/-! PROOFS about the parameter block (spec/30_encoding.md section 3): its words as functions of its fields, and the
chaining value of the plain block. -/

namespace Sys2Proof.Machine

/-! ### Bytes of composed words -/

@[simp] theorem byteAt_or {w : Nat} (x y : BitVec w) (k : Nat) : byteAt (x ||| y) k = byteAt x k ||| byteAt y k :=
  BitVec.extractLsb'_or

@[simp] theorem byteAt_zero {w : Nat} (k : Nat) : byteAt (0#w) k = 0 := by simp [byteAt]

/-- A byte holds itself as byte 0 and nothing above. -/
@[simp] theorem byteAt_byte (b : Byte) (k : Nat) : byteAt b k = if k = 0 then b else 0 := by
  split
  · next hk => subst hk; exact BitVec.extractLsb'_eq_self
  · next hk =>
    apply BitVec.eq_of_getLsbD_eq
    intro i hi
    simp [byteAt, BitVec.getLsbD_of_ge b (8 * k + i) (by omega)]

/-- A value put into a word from byte `j` up. -/
theorem byteAt_setWidth_shiftLeft {w : Nat} (x : BitVec w) {j k n : Nat} (hn : n = 8 * j) (hk : k < 8) :
    byteAt (x.setWidth 64 <<< n) k = if j ≤ k then byteAt x (k - j) else 0 := by
  subst hn
  apply BitVec.eq_of_getLsbD_eq
  intro i hi
  split
  · next hjk =>
    simp [byteAt, hi, show 8 * k + i < 64 by omega, show ¬ 8 * k + i < 8 * j by omega,
      show 8 * k + i - 8 * j = 8 * (k - j) + i by omega]
  · next hjk => simp [byteAt, hi, show 8 * k + i < 8 * j by omega]

theorem byteAt_setWidth {w : Nat} (x : BitVec w) {k : Nat} (hk : k < 8) : byteAt (x.setWidth 64) k = byteAt x k := by
  simpa using byteAt_setWidth_shiftLeft x (j := 0) rfl hk

/-- Byte `k` of word `i` of a parameter block (R81). -/
theorem byteAt_paramWord (param : Vector Byte 64) (i : Nat) {k : Nat} (hk : k < 8) :
    byteAt (paramWord param i) k = param.toList.getD (8 * i + k) 0 :=
  (byteAt_load64 (List.length_take_le _ _) k).trans (getD_take_drop _ _ hk)

/-! ### The layout of R80 -/

theorem ParamFields.length_byteList (p : ParamFields) : p.byteList.length = 64 := by
  simp [ParamFields.byteList, length_littleEndianBytes]

theorem ParamFields.toList_block (p : ParamFields) : p.block.toList = p.byteList := by
  have hlen := p.length_byteList
  apply List.ext_getElem
  · rw [hlen, Vector.length_toList]
  · intro j hj hj'
    simp only [ParamFields.block, Vector.getElem_toList, Vector.getElem_ofFn]
    exact List.getD_eq_getElem _ _ hj'

/-- The bytes of word 0 (R80). -/
def ParamFields.headBytes (p : ParamFields) : List Byte :=
  [p.digestLength, p.keyLength, p.fanout, p.depth] ++ littleEndianBytes 4 p.leafLength

/-- The bytes of words 2 and 3 (R80). -/
def ParamFields.nodeBytes (p : ParamFields) : List Byte :=
  [p.nodeDepth, p.innerLength] ++ p.reserved.toList

/-- The block cut at its words (R81). -/
theorem ParamFields.byteList_eq (p : ParamFields) :
    p.byteList = p.headBytes ++ (store64 p.nodeOffset ++ (p.nodeBytes ++ (p.salt.toList ++ p.personal.toList))) := by
  simp [ParamFields.byteList, ParamFields.headBytes, ParamFields.nodeBytes, store64]

theorem ParamFields.length_headBytes (p : ParamFields) : p.headBytes.length = 8 := by
  simp [ParamFields.headBytes, length_littleEndianBytes]

theorem ParamFields.length_nodeBytes (p : ParamFields) : p.nodeBytes.length = 16 := by
  simp [ParamFields.nodeBytes]

/-! ### The words -/

section
variable (p : ParamFields)

theorem paramWord_block_zero :
    paramWord p.block 0 = p.digestLength.setWidth 64 ||| (p.keyLength.setWidth 64 <<< 8) |||
      (p.fanout.setWidth 64 <<< 16) ||| (p.depth.setWidth 64 <<< 24) ||| (p.leafLength.setWidth 64 <<< 32) := by
  refine word_ext (n := 8) fun k hk => ?_
  rw [byteAt_paramWord _ _ hk, p.toList_block, p.byteList_eq,
    List.getD_append _ _ _ _ (by rw [p.length_headBytes]; omega)]
  simp only [byteAt_or, byteAt_setWidth _ hk, byteAt_setWidth_shiftLeft _ (j := 1) rfl hk,
    byteAt_setWidth_shiftLeft _ (j := 2) rfl hk, byteAt_setWidth_shiftLeft _ (j := 3) rfl hk,
    byteAt_setWidth_shiftLeft _ (j := 4) rfl hk, byteAt_byte]
  interval_cases k <;> simp [ParamFields.headBytes, littleEndianBytes, List.range_succ]

theorem paramWord_block_one : paramWord p.block 1 = p.nodeOffset := by
  rw [paramWord, p.toList_block, p.byteList_eq, List.drop_left' p.length_headBytes, List.take_left' (length_store64 _),
    load64_store64]

/-- Byte `k` of words 2 and 3, in the bytes that hold them. -/
theorem getD_byteList_node {k : Nat} (hk : k < 16) : p.byteList.getD (16 + k) 0 = p.nodeBytes.getD k 0 := by
  have hhead := p.length_headBytes
  have hnode := p.length_nodeBytes
  have hoffset := length_store64 p.nodeOffset
  rw [p.byteList_eq, List.getD_append_right _ _ _ _ (by omega), List.getD_append_right _ _ _ _ (by omega),
    List.getD_append _ _ _ _ (by omega), hhead, hoffset]
  congr 1
  omega

/-- With the reserved bytes 0 only the first two of these bytes can hold anything. -/
theorem getD_nodeBytes (hres : p.reserved = Vector.replicate 14 0) (k : Nat) :
    p.nodeBytes.getD k 0 = if k = 0 then p.nodeDepth else if k = 1 then p.innerLength else 0 := by
  match k with
  | 0 => rfl
  | 1 => rfl
  | k + 2 =>
    rw [if_neg (by omega), if_neg (by omega), ParamFields.nodeBytes, hres, Vector.toList_replicate]
    exact getD_zeros 14 k

theorem paramWord_block_two (hres : p.reserved = Vector.replicate 14 0) :
    paramWord p.block 2 = p.nodeDepth.setWidth 64 ||| (p.innerLength.setWidth 64 <<< 8) := by
  refine word_ext (n := 8) fun k hk => ?_
  rw [byteAt_paramWord _ _ hk, p.toList_block, getD_byteList_node p (by omega), getD_nodeBytes p hres, byteAt_or,
    byteAt_setWidth _ hk, byteAt_setWidth_shiftLeft _ (j := 1) rfl hk, byteAt_byte, byteAt_byte]
  interval_cases k <;> simp

theorem paramWord_block_three (hres : p.reserved = Vector.replicate 14 0) : paramWord p.block 3 = 0 := by
  refine word_ext (n := 8) fun k hk => ?_
  rw [byteAt_paramWord _ _ hk, p.toList_block, show 8 * 3 + k = 16 + (8 + k) by omega,
    getD_byteList_node p (by omega), getD_nodeBytes p hres, if_neg (by omega), if_neg (by omega)]
  exact (byteAt_zero k).symm

/-- The last 32 bytes of the block. -/
theorem drop_byteList : p.byteList.drop 32 = p.salt.toList ++ p.personal.toList := by
  have hlen : (p.headBytes ++ store64 p.nodeOffset ++ p.nodeBytes).length = 32 := by
    simp [p.length_headBytes, length_store64, p.length_nodeBytes]
  rw [p.byteList_eq, ← List.append_assoc, ← List.append_assoc]
  exact List.drop_left' hlen

theorem salt_block : (p.block.toList.drop 32).take 16 = p.salt.toList := by
  rw [p.toList_block, drop_byteList, List.take_left' p.salt.length_toList]

theorem personal_block : (p.block.toList.drop 48).take 16 = p.personal.toList := by
  rw [p.toList_block, show 48 = 32 + 16 from rfl, ← List.drop_drop, drop_byteList, List.drop_left' p.salt.length_toList,
    List.take_of_length_le p.personal.length_toList.le]

end

/-- Settles O18: each word by its bytes. -/
theorem paramBlockWordView : Obligations.ParamBlockWordView :=
  fun p hres => ⟨paramWord_block_zero p, paramWord_block_one p, paramWord_block_two p hres,
    paramWord_block_three p hres, salt_block p, personal_block p⟩

/-! ### The plain block (R82) -/

theorem getD_plainParam (outlen : Byte) (keylen j : Nat) :
    (plainParam outlen keylen).toList.getD j 0 =
      if j = 0 then outlen else if j = 1 then BitVec.ofNat 8 keylen else if j = 2 ∨ j = 3 then 1 else 0 := by
  by_cases hj : j < 64
  · rw [List.getD_eq_getElem _ _ (by simpa using hj)]
    simp [plainParam, ite_or]
  · rw [List.getD_eq_default _ _ (by simpa using hj)]
    simp (disch := omega) only [if_neg]

theorem paramWord_plainParam_zero (outlen : Byte) {keylen : Nat} (hk : keylen ≤ 255) :
    paramWord (plainParam outlen keylen) 0 =
      0x0000000001010000#64 ||| (BitVec.ofNat 64 keylen <<< 8) ||| outlen.setWidth 64 := by
  have hones : 0x0000000001010000#64 = (1#8).setWidth 64 <<< 16 ||| (1#8).setWidth 64 <<< 24 := by decide
  have hkey : BitVec.ofNat 64 keylen = (BitVec.ofNat 8 keylen).setWidth 64 := by
    apply BitVec.eq_of_toNat_eq
    simp
    omega
  refine word_ext (n := 8) fun k hk => ?_
  rw [byteAt_paramWord _ _ hk, getD_plainParam, hones, hkey]
  simp only [byteAt_or, byteAt_setWidth _ hk, byteAt_setWidth_shiftLeft _ (j := 1) rfl hk,
    byteAt_setWidth_shiftLeft _ (j := 2) rfl hk, byteAt_setWidth_shiftLeft _ (j := 3) rfl hk, byteAt_byte]
  interval_cases k <;> simp

theorem paramWord_plainParam_of_pos (outlen : Byte) (keylen : Nat) {i : Nat} (hi : 0 < i) :
    paramWord (plainParam outlen keylen) i = 0 := by
  refine word_ext (n := 8) fun k hk => ?_
  rw [byteAt_paramWord _ _ hk, getD_plainParam]
  simp (disch := omega) only [if_neg]
  exact (byteAt_zero k).symm

theorem getElem_initialChain (param : Vector Byte 64) (i : Fin 8) :
    (initialChain param)[i] = iv[i] ^^^ paramWord param i :=
  Vector.getElem_ofFn i.isLt

/-- Settles O19: the words of the plain block, xored into the IV. -/
theorem plainBlockChainingValue : Obligations.PlainBlockChainingValue := by
  intro outlen keylen hk
  have hrest : ∀ i : Fin 8, i ≠ 0 → paramWord (plainParam outlen keylen) i = 0 :=
    fun i hi => paramWord_plainParam_of_pos outlen keylen (Fin.pos_iff_ne_zero.2 hi)
  refine ⟨paramWord_plainParam_zero outlen hk, hrest, ?_, fun i hi => ?_⟩
  · rw [← paramWord_plainParam_zero outlen hk]
    exact getElem_initialChain _ 0
  · rw [getElem_initialChain, hrest i hi]
    exact BitVec.xor_zero

end Sys2Proof.Machine

/-! PROOFS about the compression function (spec/40_compression.md): its constants, the mixing primitive, the order of
the applications in a round, and what Compress depends on. -/

namespace Sys2Proof.Machine

/-! ### The constants -/

/-- The whole parts of the square roots of the first eight primes. -/
def rootFloors : Vector Nat 8 := #v[1, 1, 2, 2, 3, 3, 4, 4]

/-- Settles O20, by the whole part of each root. -/
theorem ivIsFractionOfSquareRoots : Obligations.IvIsFractionOfSquareRoots :=
  fun i => ⟨rootFloors[i], by revert i; decide⟩

/-- Settles O21, over the finite table. -/
theorem sigmaRowsArePermutations : Obligations.SigmaRowsArePermutations :=
  ⟨by decide, rfl, rfl⟩

/-! ### The mixing primitive (R107) -/

/-- Bit `i` of a rotation. -/
theorem getLsbD_rotr64 (x : Word) {n i : Nat} (hn : n < 64) (hi : i < 64) :
    (rotr64 x n).getLsbD i = x.getLsbD ((i + n) % 64) := by
  rw [rotr64, BitVec.getLsbD_or, BitVec.getLsbD_ushiftRight, BitVec.getLsbD_shiftLeft]
  by_cases hwrap : i + n < 64
  · simp [Nat.mod_eq_of_lt hwrap, Nat.add_comm n i, show i < 64 - n by omega]
  · simp [hi, show ¬ i < 64 - n by omega, show (i + n) % 64 = i - (64 - n) by omega,
      BitVec.getLsbD_of_ge x (n + i) (by omega)]

/-- Rotating by `n` and then by the rest of 64 gives the word back. -/
theorem rotr64_rotr64 (x : Word) {m n : Nat} (hm : 0 < m) (hn : 0 < n) (hmn : m + n = 64) :
    rotr64 (rotr64 x m) n = x := by
  apply BitVec.eq_of_getLsbD_eq
  intro i hi
  rw [getLsbD_rotr64 _ (by omega) hi, getLsbD_rotr64 _ (by omega) (by omega)]
  congr 1
  omega

/-- Half of the mixing primitive: one message word and two rotations. -/
def halfMix (x : Word) (m n : Nat) (q : Quad) : Quad :=
  let a := q.a + q.b + x
  let d := rotr64 (q.d ^^^ a) m
  let c := q.c + d
  ⟨a, rotr64 (q.b ^^^ c) n, c, d⟩

/-- The way back: the four assignments undone, the last one first. -/
def unHalfMix (x : Word) (m n : Nat) (q : Quad) : Quad :=
  let b := rotr64 q.b (64 - n) ^^^ q.c
  ⟨q.a - x - b, b, q.c - q.d, rotr64 q.d (64 - m) ^^^ q.a⟩

theorem mixG_eq_halfMix (q : Quad) (x y : Word) : mixG q x y = halfMix y 16 63 (halfMix x 32 24 q) := rfl

theorem halfMix_bijective (x : Word) {m n : Nat} (hm : 0 < m) (hm' : m < 64) (hn : 0 < n) (hn' : n < 64) :
    Function.Bijective (halfMix x m n) := by
  refine Function.bijective_iff_has_inverse.2 ⟨unHalfMix x m n, fun q => ?_, fun q => ?_⟩
  · simp only [halfMix, unHalfMix, rotr64_rotr64 _ hm (show 0 < 64 - m by omega) (by omega),
      rotr64_rotr64 _ hn (show 0 < 64 - n by omega) (by omega), BitVec.xor_assoc, BitVec.xor_self, BitVec.xor_zero,
      BitVec.add_sub_cancel]
  · simp only [halfMix, unHalfMix, rotr64_rotr64 _ (show 0 < 64 - m by omega) hm (by omega),
      rotr64_rotr64 _ (show 0 < 64 - n by omega) hn (by omega), BitVec.xor_assoc, BitVec.xor_self, BitVec.xor_zero,
      BitVec.sub_add_cancel]

/-- Settles O22: the primitive is two halves, and each can be undone. -/
theorem mixingPrimitiveIsBijective : Obligations.MixingPrimitiveIsBijective := by
  intro x y
  have hfirst : Function.Bijective (halfMix x 32 24) :=
    halfMix_bijective x (by decide) (by decide) (by decide) (by decide)
  have hsecond : Function.Bijective (halfMix y 16 63) :=
    halfMix_bijective y (by decide) (by decide) (by decide) (by decide)
  simp only [mixG_eq_halfMix]
  exact hsecond.comp hfirst

/-! ### The order of the applications in a round (R113) -/

/-- The four positions. -/
def GPositions.toList (p : GPositions) : List (Fin 16) := [p.a, p.b, p.c, p.d]

section
variable {v w : Vector Word 16} {p p' : GPositions} (q q' : Quad) {k : Fin 16}

theorem getElem_setQuad (v : Vector Word 16) (p : GPositions) (k : Fin 16) :
    (setQuad v p q)[k] =
      if p.d = k then q.d else if p.c = k then q.c else if p.b = k then q.b else if p.a = k then q.a else v[k] := by
  simp only [setQuad, Fin.getElem_fin, Vector.getElem_set, Fin.val_inj]

theorem getElem_setQuad_of_notMem (hk : k ∉ p.toList) : (setQuad v p q)[k] = v[k] := by
  simp only [GPositions.toList, List.mem_cons, List.not_mem_nil, or_false, not_or] at hk
  obtain ⟨ha, hb, hc, hd⟩ := hk
  rw [getElem_setQuad, if_neg (Ne.symm hd), if_neg (Ne.symm hc), if_neg (Ne.symm hb), if_neg (Ne.symm ha)]

theorem getElem_setQuad_of_mem (hk : k ∈ p.toList) : (setQuad v p q)[k] = (setQuad w p q)[k] := by
  simp only [GPositions.toList, List.mem_cons, List.not_mem_nil, or_false] at hk
  rw [getElem_setQuad, getElem_setQuad]
  obtain rfl | rfl | rfl | rfl := hk <;> simp

/-- Writing four words leaves four others alone. -/
theorem quadAt_setQuad (v : Vector Word 16) (hp : p.toList.Disjoint p'.toList) :
    quadAt (setQuad v p q) p' = quadAt v p' := by
  have h : ∀ k ∈ p'.toList, (setQuad v p q)[k] = v[k] := fun k hk => getElem_setQuad_of_notMem q fun hk' => hp hk' hk
  rw [quadAt, h _ (by simp [GPositions.toList]), h _ (by simp [GPositions.toList]), h _ (by simp [GPositions.toList]),
    h _ (by simp [GPositions.toList]), quadAt]

/-- Writes to disjoint positions may be made in either order. -/
theorem setQuad_comm (v : Vector Word 16) (hp : p.toList.Disjoint p'.toList) :
    setQuad (setQuad v p q) p' q' = setQuad (setQuad v p' q') p q := by
  suffices h : ∀ k : Fin 16, (setQuad (setQuad v p q) p' q')[k] = (setQuad (setQuad v p' q') p q)[k] from
    Vector.ext fun j hj => h ⟨j, hj⟩
  intro k
  by_cases hk : k ∈ p.toList
  · rw [getElem_setQuad_of_notMem q' (hp hk), getElem_setQuad_of_mem q hk]
  · rw [getElem_setQuad_of_notMem q hk]
    by_cases hk' : k ∈ p'.toList
    · exact getElem_setQuad_of_mem q' hk'
    · rw [getElem_setQuad_of_notMem q' hk', getElem_setQuad_of_notMem q' hk', getElem_setQuad_of_notMem q hk]

end

/-- Two applications of the same half, 0 to 3 or 4 to 7, work on different positions (R105). -/
theorem gPositions_disjoint {i j : Fin 8} (hij : i ≠ j) (h : i < 4 ↔ j < 4) :
    gPositions[i].toList.Disjoint gPositions[j].toList := by
  have hall : ∀ i j : Fin 8, i ≠ j → (i < 4 ↔ j < 4) → ∀ k ∈ gPositions[i].toList, k ∉ gPositions[j].toList := by
    decide
  exact fun k hk => hall i j hij h k hk

/-- Two applications of the same half may run in either order. -/
theorem applyG_comm (m v : Vector Word 16) (r : Fin 12) {i j : Fin 8} (h : i < 4 ↔ j < 4) :
    applyG m r (applyG m r v i) j = applyG m r (applyG m r v j) i := by
  by_cases hij : i = j
  · rw [hij]
  · have hp := gPositions_disjoint hij h
    rw [applyG, applyG, applyG, applyG, quadAt_setQuad _ v hp, quadAt_setQuad _ v hp.symm, setQuad_comm _ _ v hp]

/-- The applications of one half may run in any order. -/
theorem foldl_applyG_perm (m v : Vector Word 16) (r : Fin 12) {order order' : List (Fin 8)} (hperm : order.Perm order')
    (h : ∀ i ∈ order, ∀ j ∈ order, i < 4 ↔ j < 4) : order.foldl (applyG m r) v = order'.foldl (applyG m r) v :=
  hperm.foldl_eq' (fun i hi j hj v => applyG_comm m v r (h i hi j hj)) v

/-- Settles O23: each half is put in the order of R105, where the two make a round. -/
theorem halfRoundsRunInAnyOrder : Obligations.HalfRoundsRunInAnyOrder := by
  intro m v r columns diagonals hc hd
  have hcolumns : ∀ i ∈ columns, i < 4 :=
    fun i hi => (by decide : ∀ i ∈ [(0 : Fin 8), 1, 2, 3], i < 4) i (hc.mem_iff.1 hi)
  have hdiagonals : ∀ i ∈ diagonals, ¬ i < 4 :=
    fun i hi => (by decide : ∀ i ∈ [(4 : Fin 8), 5, 6, 7], ¬ i < 4) i (hd.mem_iff.1 hi)
  rw [List.foldl_append,
    foldl_applyG_perm m v r hc fun i hi j hj => iff_of_true (hcolumns i hi) (hcolumns j hj),
    foldl_applyG_perm m _ r hd fun i hi j hj => iff_of_false (hdiagonals i hi) (hdiagonals j hj),
    ← List.foldl_append]
  rfl

/-! ### What Compress depends on (R121) -/

/-- Settles O24: the counter and the block are the same, and the chaining value is a function of them. -/
theorem compressIsPure : Obligations.CompressIsPure := by
  intro s s' inc hh ht0 ht1 hf0 hf1 hbuf
  have hblock : bufRead s.buf 0 128 = bufRead s'.buf 0 128 := bufRead_congr fun k hk => hbuf _ (by omega)
  simp only [compress_h, compress_t0, compress_t1, incrementCounter_t0, incrementCounter_t1, hh, ht0, ht1, hf0, hf1,
    hblock, and_self]

end Sys2Proof.Machine

/-! PROOFS about what commands owe to what came before (spec/41_commands.md, spec/10_state.md section 6,
spec/70_reset_and_hazards.md sections 3 and 4): INIT discards it, UPDATE does not see how the data was split, and the
counts do not see its bytes. -/

namespace Sys2Proof.Machine

/-! ### INIT -/

/-- Settles O27: with an empty key there is no key path, and an empty key is never too long. -/
theorem emptyKeyIsInitPlain : Obligations.EmptyKeyIsInitPlain := by
  intro outlen s
  by_cases hl : 1 ≤ outlen.toNat ∧ outlen.toNat ≤ 64
  · rw [exec_initPlain_of_legal hl, exec_initKeyed_of_legal ⟨hl.1, hl.2, Nat.zero_le _⟩, if_neg (by simp)]
    rfl
  · rw [exec_initPlain_of_illegal hl, exec_initKeyed_of_illegal fun h => hl ⟨h.1, h.2.1⟩]

section
variable {s s' : State}

/-- InitFromParam writes every element but KSCR and the queue, and `return ok` the rest (R145). -/
theorem returnOk_initFromParam_congr (hin : s.inbox = s'.inbox) (hk : s.kscr = s'.kscr) (param : Vector Byte 64)
    (lastNode : Bool) :
    returnOk [] (initFromParam param lastNode s) = returnOk [] (initFromParam param lastNode s') := by
  apply State.ext <;> simp [hin, hk]

theorem returnOk_absorbKey_initFromParam_congr (hin : s.inbox = s'.inbox) (hk : s.kscr = s'.kscr) (key : List Byte)
    (param : Vector Byte 64) (lastNode : Bool) :
    returnOk [] (absorbKey key (initFromParam param lastNode s)) =
      returnOk [] (absorbKey key (initFromParam param lastNode s')) := by
  rw [returnOk_absorbKey_initFromParam, returnOk_absorbKey_initFromParam, returnOk_initFromParam_congr hin hk]

/-- Settles O29: the state left is `returnOk` of InitFromParam, behind the key path where there is a key. -/
theorem initDiscardsTheOldComputation : Obligations.InitDiscardsTheOldComputation := by
  intro i s s' t t' hi hin hk h h' he
  obtain ⟨e, hne, rfl⟩ | ⟨o, rfl, hl, rfl⟩ | ⟨o, key, rfl, hl, hkey, rfl⟩ | ⟨ln, p, rfl, hd, hkl, hr, rfl⟩ |
    ⟨_, rfl, -⟩ | ⟨_, rfl, -⟩ := exec_cases h
  · exact absurd he (by rwa [raise_err])
  · rw [exec_initPlain_of_legal ((legalOutlen_iff _).1 hl)] at h'
    cases h'
    exact (returnOk_initFromParam_congr hin hk _ _).symm
  · rw [exec_initKeyed_of_legal ((legalLengths_iff _ _).1 (Bool.and_eq_true_iff.2 ⟨hl, hkey⟩))] at h'
    cases h'
    split
    · exact (returnOk_absorbKey_initFromParam_congr hin hk key _ _).symm
    · exact (returnOk_initFromParam_congr hin hk _ _).symm
  · have hlegal := (legalLengths_iff _ _).1 (Bool.and_eq_true_iff.2 ⟨hd, hkl⟩)
    rw [exec_initParam_of_legal_length ln s' hlegal, if_pos hr] at h'
    cases h'
    exact (returnOk_initFromParam_congr hin hk _ _).symm
  · cases hi
  · cases hi

end

/-! ### UPDATE -/

section
variable {s : State}

theorem foldl_absorbByte_phase (data : List Byte) (hw : s.buf.wf) (hl : s.buflen ≤ 128) :
    (data.foldl absorbByte s).phase = s.phase := by
  rw [← absorb_eq_foldl hw hl, (sameOutside_absorb data s).phase]

/-- `return ok` in phase Ready with no bytes, whole. -/
theorem returnOk_ready (hp : s.phase = .ready) :
    returnOk [] s = { s with err := .ok, output := some (.response 0x00000010#32 []) } := by
  apply State.ext <;> simp [hp, statusOf_ready_ok]

/-- Settles O31: Absorb is the byte-serial form. -/
theorem updateIsByteSerial : Obligations.UpdateIsByteSerial := by
  intro data s hp hw hl
  rw [exec_update_ready hp, absorb_eq_foldl hw hl, returnOk_ready ((foldl_absorbByte_phase data hw hl).trans hp)]

theorem absorb_nil (s : State) : absorb [] s = s := rfl

/-- Settles O32: there is nothing to absorb. -/
theorem emptyUpdateChangesOnlyErr : Obligations.EmptyUpdateChangesOnlyErr := by
  intro s hp
  rw [exec_update_ready hp, absorb_nil, returnOk_ready hp]

theorem returnOk_carrying (d : List Byte) (e : ErrorCode) (o : Option HostOutput) (s : State) :
    returnOk d (carrying e s.kscr o s) = returnOk d s := by
  rw [returnOk_eq_carrying, returnOk_eq_carrying]
  rfl

/-- What an earlier `return ok` wrote is written again by a later one. -/
theorem returnOk_absorb_returnOk (d d' data : List Byte) (s : State) :
    returnOk d (absorb data (returnOk d' s)) = returnOk d (absorb data s) := by
  rw [returnOk_eq_carrying d', absorb_carrying, ← (sameOutside_absorb data s).kscr, returnOk_carrying]

/-- UPDATE behind a command that succeeded and left phase Ready. -/
theorem exec_update_returnOk (hp : s.phase = .ready) (data bytes : List Byte) :
    exec (.update data) (returnOk bytes s) = .next (returnOk [] (absorb data s)) := by
  rw [exec_update_ready ((returnOk_phase bytes s).trans hp), returnOk_absorb_returnOk]

/-- Settles O33, by `absorb_append`. -/
theorem twoUpdatesAreOne : Obligations.TwoUpdatesAreOne := by
  intro a b s t hp hw hl h
  cases (exec_update_ready hp a).symm.trans h
  rw [exec_update_returnOk ((sameOutside_absorb a s).phase.trans hp), exec_update_ready hp, absorb_append hw hl]

/-- INIT_PARAM accepts the plain block of legal lengths (R153). -/
theorem exec_initParam_plainParam {outlen : Byte} (ho : 1 ≤ outlen.toNat ∧ outlen.toNat ≤ 64) {keylen : Nat}
    (hk : keylen ≤ 64) (s : State) :
    exec (.initParam false (plainParam outlen keylen)) s =
      .next (returnOk [] (initFromParam (plainParam outlen keylen) false s)) := by
  have hbyte0 : (plainParam outlen keylen)[0] = outlen := by simp [plainParam]
  have hbyte1 : (plainParam outlen keylen)[1].toNat = keylen := by simp [plainParam]; omega
  have hres : reservedClear (plainParam outlen keylen) = true :=
    (reservedClear_iff _).2 fun k hlo hhi => by simp (disch := omega) [plainParam, if_neg]
  rw [exec_initParam_of_legal_length false s (by rw [hbyte0, hbyte1]; exact ⟨ho.1, ho.2, hk⟩), if_pos hres]

/-- Settles O53: KSCR aside, which both leave zero, INIT_KEYED is InitFromParam and absorbing the key block. -/
theorem paramThenKeyBlockIsInitKeyed : Obligations.ParamThenKeyBlockIsInitKeyed := by
  intro outlen key s t ho ho' hk hk' hkscr h
  cases (exec_initParam_plainParam ⟨ho, ho'⟩ hk' s).symm.trans h
  rw [exec_initKeyed_of_legal ⟨ho, ho', hk'⟩, if_pos (show key.length > 0 from hk), returnOk_absorbKey,
    keyBlock_toList (by omega), exec_update_returnOk (initFromParam_phase ..), returnOk_eq_carrying,
    (sameOutside_absorb _ _).kscr, (sameOutside_absorb _ _).phase, initFromParam_kscr, hkscr]

end

/-! ### The counts (R42, R43) -/

/-- The two words of a counter hold the count modulo 2^128. -/
theorem count_toNat (n : Nat) : (countHigh n).toNat * 2 ^ 64 + (countLow n).toNat = n % 2 ^ 128 := by
  simp only [countHigh, countLow, BitVec.toNat_ofNat]
  omega

/-- Settles O34: what `Absorbed` says, as numbers. -/
theorem absorbedBytesDetermineTheCounts : Obligations.AbsorbedBytesDetermineTheCounts := by
  intro h0 input data s hs
  obtain ⟨t, ht, ha, -⟩ := (updateResult data s).1 h0 input hs
  have hlen := ha.buflen
  rw [length_pendingBytes, interiorBlocks] at hlen
  have hsub : 128 * interiorBlocks (input ++ data).length = (input ++ data).length - t.buflen := by
    rw [interiorBlocks]; omega
  refine ⟨t, ht, by omega, ?_, fun hne => ?_, ?_, ?_⟩
  · rw [← List.length_eq_zero_iff]; omega
  · have := List.length_pos_iff.2 hne
    omega
  · rw [ha.t0, ha.t1, count_toNat, hsub]
  · rw [ha.ncomp, BitVec.toNat_ofNat, ← hsub, Nat.mul_div_cancel_left _ (by decide)]

/-- Settles O36: what `Finished` says, as numbers. -/
theorem finalCountsTheMessage : Obligations.FinalCountsTheMessage := by
  intro h0 input s hs
  have hf := finished_finishDigest s.digestLength.toNat hs
  refine ⟨_, exec_final_ready _ hs.phase rfl, ?_, ?_, ?_⟩
  · rw [returnOk_phase, hf.phase]
  · rw [returnOk_t0, returnOk_t1, hf.t0, hf.t1, count_toNat]
  · rw [returnOk_ncomp, hf.ncomp, BitVec.toNat_ofNat, interiorBlocks]
    congr 1
    omega

/-! ### The key block leaves the buffer (R232) -/

/-- A whole block with bytes behind it is not pending. -/
theorem pendingBytes_append {block data : List Byte} (hb : block.length = 128) (hd : data ≠ []) :
    pendingBytes (block ++ data) = pendingBytes data := by
  have := List.length_pos_iff.2 hd
  have hcount : 128 * interiorBlocks (block ++ data).length = block.length + 128 * interiorBlocks data.length := by
    rw [List.length_append, hb, interiorBlocks, interiorBlocks]; omega
  rw [pendingBytes, hcount, ← List.drop_drop, List.drop_left, pendingBytes]

/-- What is pending is all there is in the buffer. -/
theorem absorbed_buf_eq {h0 h0' : Vector Word 8} {input input' : List Byte} {s s' : State} (hs : Absorbed h0 input s)
    (hs' : Absorbed h0' input' s') (hpending : pendingBytes input = pendingBytes input') :
    s.buf = s'.buf ∧ s.buflen = s'.buflen :=
  ⟨memory_ext hs.bufWf hs'.bufWf fun a => by rw [hs.buf, hs'.buf, hpending], by rw [hs.buflen, hs'.buflen, hpending]⟩

theorem carrying_kscr (e : ErrorCode) (k : Vector Byte 128) (o : Option HostOutput) (s : State) :
    (carrying e k o s).kscr = k := rfl

/-- The state behind an INIT_KEYED with a key has absorbed the key block (R149). -/
theorem absorbed_initKeyed {o : Byte} {key : List Byte} {s t : State}
    (hl : 1 ≤ o.toNat ∧ o.toNat ≤ 64 ∧ key.length ≤ 64) (hk : 1 ≤ key.length)
    (h : exec (.initKeyed o key) s = .next t) :
    Absorbed (initialChain (plainParam o key.length)) (keyBlock key).toList t ∧ t.kscr = Vector.replicate 128 0 := by
  rw [exec_initKeyed_of_legal hl, if_pos (show key.length > 0 from hk), returnOk_absorbKey,
    Host.Outcome.next.injEq] at h
  subst h
  have ha := absorbed_absorb (absorbed_initFromParam (plainParam o key.length) false s) (keyBlock key).toList
  rw [List.nil_append] at ha
  exact ⟨absorbed_carrying ha _ _ _, carrying_kscr ..⟩

/-- UPDATE in phase Ready absorbs its data and leaves KSCR alone. -/
theorem absorbed_update {h0 : Vector Word 8} {input data : List Byte} {s t : State} (hs : Absorbed h0 input s)
    (h : exec (.update data) s = .next t) : Absorbed h0 (input ++ data) t ∧ t.kscr = s.kscr := by
  cases (exec_update_ready hs.phase data).symm.trans h
  exact ⟨absorbed_returnOk (absorbed_absorb hs data) [],
    by rw [returnOk_kscr, (sameOutside_absorb data s).kscr]⟩

/-- Settles O44: both buffers hold the pending bytes of `data` alone. -/
theorem keyBlockLeavesTheBuffer : Obligations.KeyBlockLeavesTheBuffer := by
  intro o key key' data s t u t' u' ho ho' hk hk64 hk' hk64' hd ht hu ht' hu'
  obtain ⟨hat, hkscr⟩ := absorbed_initKeyed ⟨ho, ho', hk64⟩ hk ht
  obtain ⟨hat', -⟩ := absorbed_initKeyed ⟨ho, ho', hk64'⟩ hk' ht'
  obtain ⟨hau, hkscr'⟩ := absorbed_update hat hu
  obtain ⟨hau', -⟩ := absorbed_update hat' hu'
  obtain ⟨hbuf, hbuflen⟩ := absorbed_buf_eq hau hau' <| by
    rw [pendingBytes_append (keyBlock key).length_toList hd, pendingBytes_append (keyBlock key').length_toList hd]
  exact ⟨hbuf, hbuflen, hkscr'.trans hkscr⟩

/-! ### Control ignores the data (R241) -/

/-- The two states agree on the elements that control. -/
structure SameControl (s s' : State) : Prop where
  phase : s.phase = s'.phase
  buflen : s.buflen = s'.buflen
  digestLength : s.digestLength = s'.digestLength
  t0 : s.t0 = s'.t0
  t1 : s.t1 = s'.t1
  ncomp : s.ncomp = s'.ncomp

section
variable {s s' : State}

theorem sameControl_fill {c c' : List Byte} (hc : c.length = c'.length) (h : SameControl s s') :
    SameControl (fill c s) (fill c' s') := by
  obtain ⟨hphase, hbuflen, hdl, ht0, ht1, hncomp⟩ := h
  constructor <;> simp [*]

theorem sameControl_compress (k : Nat) (h : SameControl s s') : SameControl (compress k s) (compress k s') := by
  obtain ⟨hphase, hbuflen, hdl, ht0, ht1, hncomp⟩ := h
  constructor <;> simp [*]

theorem sameControl_shiftBlock (h : SameControl s s') : SameControl (shiftBlock s) (shiftBlock s') := by
  obtain ⟨hphase, hbuflen, hdl, ht0, ht1, hncomp⟩ := h
  constructor <;> simp [*]

theorem sameControl_drain (n : Nat) (h : SameControl s s') : SameControl (drain n s) (drain n s') := by
  induction n generalizing s s' with
  | zero => exact h
  | succ n ih =>
    rw [drain, drain, h.buflen]
    split
    · exact ih (sameControl_shiftBlock (sameControl_compress 128 h))
    · exact h

theorem sameControl_absorbLoop (n : Nat) {data data' : List Byte} (hd : data.length = data'.length)
    (h : SameControl s s') : SameControl (absorbLoop n data s) (absorbLoop n data' s') := by
  induction n generalizing data data' s s' with
  | zero => exact h
  | succ n ih =>
    have hnil : data = [] ↔ data' = [] := by rw [← List.length_eq_zero_iff, hd, List.length_eq_zero_iff]
    simp only [absorbLoop, hnil, h.buflen, hd]
    split
    · exact h
    · have hfill : SameControl (fill (data.take (min (256 - s'.buflen) data'.length)) s)
          (fill (data'.take (min (256 - s'.buflen) data'.length)) s') :=
        sameControl_fill (by rw [List.length_take, List.length_take, hd]) h
      rw [hfill.buflen]
      exact ih (by rw [List.length_drop, List.length_drop, hd]) (sameControl_drain _ hfill)

theorem sameControl_absorb {data data' : List Byte} (hd : data.length = data'.length) (h : SameControl s s') :
    SameControl (absorb data s) (absorb data' s') := by
  rw [absorb, absorb, hd]
  exact sameControl_absorbLoop _ hd h

theorem sameControl_carrying (e e' : ErrorCode) (k k' : Vector Byte 128) (o o' : Option HostOutput)
    (h : SameControl s s') : SameControl (carrying e k o s) (carrying e' k' o' s') :=
  ⟨h.phase, h.buflen, h.digestLength, h.t0, h.t1, h.ncomp⟩

theorem sameControl_absorbKey {key key' : List Byte} (h : SameControl s s') :
    SameControl (absorbKey key s) (absorbKey key' s') := by
  rw [absorbKey_eq, absorbKey_eq]
  exact sameControl_carrying _ _ _ _ _ _ (sameControl_absorb (by simp) h)

/-- InitFromParam writes all of them (R145). -/
theorem sameControl_initFromParam (param : Vector Byte 64) (lastNode : Bool) (s s' : State) :
    SameControl (initFromParam param lastNode s) (initFromParam param lastNode s') :=
  ⟨rfl, rfl, rfl, rfl, rfl, rfl⟩

theorem sameControl_finishDigest (n : Nat) (h : SameControl s s') :
    SameControl (finishDigest n s) (finishDigest n s') := by
  obtain ⟨hphase, hbuflen, hdl, ht0, ht1, hncomp⟩ := h
  constructor <;> simp [finishDigest_t0, finishDigest_t1, *]

/-- The two outcomes are next states that agree on `err` and on the elements that control. -/
def SameControlOutcome (r r' : Host.Outcome State Fault Refusal) : Prop :=
  ∃ t t', r = .next t ∧ r' = .next t' ∧ t.err = t'.err ∧ SameControl t t'

theorem sameControl_raise (e : ErrorCode) (h : SameControl s s') :
    SameControlOutcome (.next (raise e s)) (.next (raise e s')) :=
  ⟨_, _, rfl, rfl, by rw [raise_err, raise_err],
    by obtain ⟨hphase, hbuflen, hdl, ht0, ht1, hncomp⟩ := h; constructor <;> simp [*]⟩

theorem sameControl_returnOk (d d' : List Byte) (h : SameControl s s') :
    SameControlOutcome (.next (returnOk d s)) (.next (returnOk d' s')) :=
  ⟨_, _, rfl, rfl, by rw [returnOk_err, returnOk_err],
    by obtain ⟨hphase, hbuflen, hdl, ht0, ht1, hncomp⟩ := h; constructor <;> simp [*]⟩

theorem sameControl_exec_update {data data' : List Byte} (hd : data.length = data'.length) (h : SameControl s s') :
    SameControlOutcome (exec (.update data) s) (exec (.update data') s') := by
  cases hp : s.phase with
  | idle =>
    rw [exec_update_idle data hp, exec_update_idle data' (h.phase ▸ hp)]
    exact sameControl_raise _ h
  | ready =>
    rw [exec_update_ready hp, exec_update_ready (h.phase ▸ hp)]
    exact sameControl_returnOk _ _ (sameControl_absorb hd h)
  | finalized =>
    rw [exec_update_finalized data hp, exec_update_finalized data' (h.phase ▸ hp)]
    exact sameControl_raise _ h

theorem sameControl_exec_initKeyed (o : Byte) {key key' : List Byte} (hk : key.length = key'.length)
    (h : SameControl s s') : SameControlOutcome (exec (.initKeyed o key) s) (exec (.initKeyed o key') s') := by
  by_cases hl : 1 ≤ o.toNat ∧ o.toNat ≤ 64 ∧ key.length ≤ 64
  · rw [exec_initKeyed_of_legal hl, exec_initKeyed_of_legal (hk ▸ hl), hk]
    refine sameControl_returnOk _ _ ?_
    split
    · exact sameControl_absorbKey (sameControl_initFromParam ..)
    · exact sameControl_initFromParam ..
  · rw [exec_initKeyed_of_illegal hl, exec_initKeyed_of_illegal (hk ▸ hl)]
    exact sameControl_raise _ h

theorem sameControl_exec_final (o : Byte) (h : SameControl s s') :
    SameControlOutcome (exec (.final o) s) (exec (.final o) s') := by
  cases hp : s.phase with
  | idle =>
    rw [exec_final_idle o hp, exec_final_idle o (h.phase ▸ hp)]
    exact sameControl_raise _ h
  | ready =>
    by_cases ho : o = s.digestLength
    · rw [exec_final_ready o hp ho, exec_final_ready o (h.phase ▸ hp) (h.digestLength ▸ ho)]
      exact sameControl_returnOk _ _ (sameControl_finishDigest _ h)
    · rw [exec_final_wrong_length o hp ho, exec_final_wrong_length o (h.phase ▸ hp) (h.digestLength ▸ ho)]
      exact sameControl_raise _ h
  | finalized =>
    rw [exec_final_finalized o hp, exec_final_finalized o (h.phase ▸ hp)]
    exact sameControl_raise _ h

end

/-- Settles O43, by the kind of the two commands. -/
theorem controlIgnoresTheData : Obligations.ControlIgnoresTheData := by
  intro i i' s s' t t' hi hphase hbuflen hdl ht0 ht1 hncomp h h'
  have hs : SameControl s s' := ⟨hphase, hbuflen, hdl, ht0, ht1, hncomp⟩
  have hout : SameControlOutcome (exec i s) (exec i' s') := by
    obtain ⟨data, data', rfl, rfl, hd⟩ | ⟨o, key, key', rfl, rfl, hk⟩ | ⟨o, rfl, rfl⟩ := hi
    · exact sameControl_exec_update hd hs
    · exact sameControl_exec_initKeyed o hk hs
    · exact sameControl_exec_final o hs
  obtain ⟨u, u', hu, hu', herr, hc⟩ := hout
  cases h.symm.trans hu
  cases h'.symm.trans hu'
  exact ⟨herr, hc.phase, hc.buflen, hc.digestLength, hc.t0, hc.t1, hc.ncomp⟩

end Sys2Proof.Machine

/-! PROOFS about observation (spec/20_memory.md R61, spec/10_state.md R36): what a read returns, and what no read
shows. -/

namespace Sys2Proof.Machine

/-- Settles O49: every byte of the window is a function of the elements that have an observation register. -/
theorem secretsHaveNoObservationRegister : Obligations.SecretsHaveNoObservationRegister := by
  intro s s' herr hphase hdl hln ht0 ht1 hbuflen hdigestLen hncomp hdigest o n
  have hbyte : ∀ a, windowByte s a = windowByte s' a := fun a => by
    simp only [windowByte, statusWord, configWord, buflenWord, digestLenWord, herr, hphase, hdl, hln, ht0, ht1, hbuflen,
      hdigestLen, hncomp, hdigest]
  simp only [observe, hbyte]

/-- Taking an event changes no element that can be observed. -/
theorem observe_taken (s : State) (o n : Nat) : observe s.taken o n = observe s o n :=
  secretsHaveNoObservationRegister _ _ rfl rfl rfl rfl rfl rfl rfl rfl rfl rfl o n

theorem ReadSize.bytes_le (size : ReadSize) : size.bytes ≤ 8 := by cases size <;> decide

section
variable (s : State)

/-- Behind the bytes asked for a read is 0. -/
theorem byteAt_observe_of_le (o : Nat) {n k : Nat} (hn : n ≤ 8) (hk : n ≤ k) : byteAt (observe s o n) k = 0 := by
  rw [observe, byteAt_ofNat_littleEndian _ _ (by simpa using Nat.mul_le_mul_left 8 hn),
    List.getD_eq_default _ _ (by simpa using hk)]

/-- Offsets beyond the window read 0 (R61, log 17). -/
theorem observe_beyond {o : Nat} (ho : 0x80 ≤ o) : observe s o 1 = 0 := by
  refine observe_eq_setWidth s (x := 0#0) (Nat.zero_le _) fun k _ => ?_
  rw [show o + k = 0x40 + (o - 0x40 + k) by omega, windowByte_digest,
    List.getD_eq_default _ _ (by rw [Vector.length_toList]; omega)]
  simp [byteAt]

/-- A read byte by byte (R61). -/
theorem byteAt_observe_eq (o : Nat) {n : Nat} (hn : n ≤ 8) (k : Nat) :
    byteAt (observe s o n) k = if k < n then byteAt (observe s (o + k) 1) 0 else 0 := by
  split
  · next hk => rw [byteAt_observe s o hn hk, byteAt_observe s (o + k) (by decide) Nat.one_pos, Nat.add_zero]
  · next hk => exact byteAt_observe_of_le s o hn (Nat.le_of_not_lt hk)

end

/-- Settles O48: the two events by the step, the value byte by byte. -/
theorem windowReadsAndWrites : Obligations.WindowReadsAndWrites := by
  refine fun s rest => ⟨fun o size hin => ?_, fun o data hin => ?_,
    fun o size k _ => byteAt_observe_eq s o size.bytes_le k, fun o ho => ?_⟩
  · rw [step_of_inbox_cons hin, handleEvent, observe_taken, State.taken_of_inbox hin]
  · rw [step_of_inbox_cons hin, handleEvent, State.taken_of_inbox hin]
  · obtain ⟨hlo, hhi⟩ | hbeyond := ho
    · exact observe_reserved s hlo hhi
    · exact observe_beyond s hbeyond

end Sys2Proof.Machine

/-! PROOFS about whole computations (spec/00_scope.md R1, spec/30_encoding.md R92, R93): a stream of transactions, HASH
and UPDATE_LONG. -/

namespace Sys2Proof.Machine

/-! ### A computation in progress -/

/-- `input` has been absorbed since an INIT from `param` with this last-node flag. -/
structure Streaming (param : Vector Byte 64) (lastNode : Bool) (input : List Byte) (s : State) : Prop where
  absorbed : Absorbed (initialChain param) input s
  digestLength : s.digestLength = paramDigestLength param
  lastNode : s.lastNode = lastNode

section
variable {param : Vector Byte 64} {lastNode : Bool} {input : List Byte} {s : State}

theorem streaming_initFromParam (param : Vector Byte 64) (lastNode : Bool) (s : State) :
    Streaming param lastNode [] (initFromParam param lastNode s) :=
  ⟨absorbed_initFromParam param lastNode s, initFromParam_digestLength .., initFromParam_lastNode ..⟩

theorem Streaming.absorb (hs : Streaming param lastNode input s) (data : List Byte) :
    Streaming param lastNode (input ++ data) (absorb data s) :=
  have ho := sameOutside_absorb data s
  ⟨absorbed_absorb hs.absorbed data, ho.digestLength.trans hs.digestLength, ho.lastNode.trans hs.lastNode⟩

theorem Streaming.carrying (hs : Streaming param lastNode input s) (e : ErrorCode) (k : Vector Byte 128)
    (o : Option HostOutput) : Streaming param lastNode input (carrying e k o s) :=
  ⟨absorbed_carrying hs.absorbed e k o, hs.digestLength, hs.lastNode⟩

theorem Streaming.returnOk (hs : Streaming param lastNode input s) (bytes : List Byte) :
    Streaming param lastNode input (returnOk bytes s) := by
  rw [returnOk_eq_carrying]
  exact hs.carrying ..

theorem Streaming.absorbKey (hs : Streaming param lastNode [] s) {key : List Byte} (hk : key.length ≤ 128) :
    Streaming param lastNode (key ++ zeros (128 - key.length)) (absorbKey key s) := by
  rw [absorbKey_eq, keyBlock_toList hk]
  exact (hs.absorb _).carrying ..

/-- `Absorbed` speaks of no element that taking an event changes. -/
theorem Streaming.taken (hs : Streaming param lastNode input s) : Streaming param lastNode input s.taken :=
  have ha := hs.absorbed
  ⟨⟨ha.phase, ha.f0, ha.f1, ha.h, ha.t0, ha.t1, ha.ncomp, ha.buflen, ha.bufWf, ha.buf⟩, hs.digestLength, hs.lastNode⟩

theorem Streaming.buflen_le (hs : Streaming param lastNode input s) : s.buflen ≤ 128 := by
  rw [hs.absorbed.buflen]
  exact length_pendingBytes_le input

/-- UPDATE carries the computation on. -/
theorem Streaming.exec_update (hs : Streaming param lastNode input s) (data : List Byte) :
    ∃ t, exec (.update data) s = .next t ∧ Streaming param lastNode (input ++ data) t :=
  ⟨_, exec_update_ready hs.absorbed.phase data, (hs.absorb data).returnOk []⟩

/-- FINAL with the block's digest length returns the digest of what has been absorbed. -/
theorem Streaming.exec_final (hs : Streaming param lastNode input s) :
    ∃ t, exec (.final (paramDigestLength param)) s = .next t ∧ t.err = .ok ∧
      t.output = some (.response 0x00000020#32 (blake2b param lastNode input)) := by
  refine ⟨_, (finalResult _ s).1 _ input hs.absorbed hs.digestLength.symm, rfl, ?_⟩
  rw [hs.lastNode, blake2b]

end

/-! ### A stream of transactions -/

section
variable {s t : State}

theorem run_succ {n : Nat} (h : step s = .next t) : Sys2Proof.core.run (n + 1) s = Sys2Proof.core.run n t := by
  have hstep : Sys2Proof.core.step s = .next t := h
  simp only [Host.Core.run, hstep]

/-- A step that takes the transaction of a command carries the command out. -/
theorem step_of_encode {i : Instr} {rest : List HostEvent} (hw : i.wellFormed = true)
    (hin : s.inbox = .command (encode i) :: rest) : step s = exec i s.taken :=
  step_of_decoded hin (decodeInvertsEncode i hw)

theorem inbox_of_step {e : HostEvent} {rest : List HostEvent} (hin : s.inbox = e :: rest) (h : step s = .next t) :
    t.inbox = rest :=
  eventsAreTakenInIssueOrder s e rest t hin h

/-- The UPDATEs and the FINAL of a computation in progress. -/
theorem run_updates_final {param : Vector Byte 64} {lastNode : Bool} {input : List Byte} {chunks : List (List Byte)}
    (hs : Streaming param lastNode input s) (hlen : ∀ c ∈ chunks, c.length ≤ 16777215)
    (hin : s.inbox = (chunks.map fun c => HostEvent.command (encode (.update c))) ++
      [.command (encode (.final (paramDigestLength param)))]) :
    ∃ t, Sys2Proof.core.run (chunks.length + 1) s = .next t ∧ t.inbox = [] ∧
      t.output = some (.response 0x00000020#32 (blake2b param lastNode (input ++ chunks.flatten))) := by
  induction chunks generalizing s input with
  | nil =>
    obtain ⟨t, ht, -, hout⟩ := hs.taken.exec_final
    have hstep := (step_of_encode rfl hin).trans ht
    refine ⟨t, run_succ hstep, inbox_of_step hin hstep, ?_⟩
    rw [List.flatten_nil, List.append_nil, hout]
  | cons c chunks ih =>
    obtain ⟨u, hu, hsu⟩ := hs.taken.exec_update c
    have hc : (Instr.update c).wellFormed = true := decide_eq_true (hlen c List.mem_cons_self)
    have hstep := (step_of_encode hc hin).trans hu
    obtain ⟨t, ht, hinbox, hout⟩ := ih hsu (fun d hd => hlen d (List.mem_cons_of_mem c hd)) (inbox_of_step hin hstep)
    refine ⟨t, (run_succ hstep).trans ht, hinbox, ?_⟩
    rw [List.flatten_cons, ← List.append_assoc, hout]

end

/-- Settles O50: the INIT_PARAM starts a computation that the UPDATEs and the FINAL carry to its end. -/
theorem streamComputesBlake2b : Obligations.StreamComputesBlake2b := by
  intro s ln param chunks hd hd' hk hres hlen hin
  have hinit := (exec_initParam_of_legal_length ln s.taken ⟨hd, hd', hk⟩).trans
    (if_pos ((reservedClear_iff param).2 hres))
  have hstep := (step_of_encode rfl hin).trans hinit
  obtain ⟨t, ht, hinbox, hout⟩ :=
    run_updates_final ((streaming_initFromParam param ln s.taken).returnOk []) hlen (inbox_of_step hin hstep)
  exact ⟨t, (run_succ hstep).trans ht, hinbox, hout⟩

/-! ### Commands issued one after the other -/

section
variable {s t : State} {i : Instr} {rest : List Instr}

theorem runCommands_cons_of_ok (h : exec i s = .next t) (he : t.err = .ok) :
    runCommands (i :: rest) s = runCommands rest t := by
  rw [runCommands, h]
  exact if_pos he

/-- A command that leaves an error is the last (R92). -/
theorem runCommands_cons_of_err (h : exec i s = .next t) (he : t.err ≠ .ok) : runCommands (i :: rest) s = .next t := by
  rw [runCommands, h]
  exact if_neg he

/-- UPDATEs behind a command that succeeded absorb their bytes as one string. -/
theorem runCommands_updates (chunks : List (List Byte)) (hp : s.phase = .ready) (hw : s.buf.wf) (hl : s.buflen ≤ 128) :
    runCommands (chunks.map .update ++ rest) (returnOk [] s) =
      runCommands rest (returnOk [] (absorb chunks.flatten s)) := by
  induction chunks generalizing s with
  | nil => rw [List.flatten_nil, absorb_nil]; rfl
  | cons c chunks ih =>
    obtain ⟨hw', hl'⟩ := absorb_keeps hw hl c
    rw [List.map_cons, List.cons_append, runCommands_cons_of_ok (exec_update_returnOk hp c []) (returnOk_err ..),
      ih ((sameOutside_absorb c s).phase.trans hp) hw' hl', List.flatten_cons, absorb_append hw hl]

end

/-- Settles O52: in phase Ready the chunks are absorbed as one string; in the others the first UPDATE fails as every
UPDATE does. -/
theorem updateLongIsOneUpdate : Obligations.UpdateLongIsOneUpdate := by
  intro data s hs
  obtain ⟨chunks, hne, hsend, rfl, -⟩ := updateLong_spec data
  obtain ⟨c, rest, rfl⟩ := List.exists_cons_of_ne_nil hne
  rw [hsend, List.map_cons]
  cases hp : s.phase with
  | idle =>
    rw [exec_update_idle _ hp, runCommands_cons_of_err (exec_update_idle c hp) (by rw [raise_err]; decide)]
  | finalized =>
    rw [exec_update_finalized _ hp, runCommands_cons_of_err (exec_update_finalized c hp) (by rw [raise_err]; decide)]
  | ready =>
    obtain ⟨hw, hl⟩ := hs hp
    obtain ⟨hw', hl'⟩ := absorb_keeps hw hl c
    have hrest := runCommands_updates (rest := []) rest ((sameOutside_absorb c s).phase.trans hp) hw' hl'
    rw [List.append_nil] at hrest
    rw [runCommands_cons_of_ok (exec_update_ready hp c) (returnOk_err ..), hrest, exec_update_ready hp,
      List.flatten_cons, absorb_append hw hl, runCommands]

/-! ### HASH -/

/-- The INIT that HASH starts with does what INIT_KEYED does (R150). -/
theorem exec_hashInit (outlen : Byte) (key : List Byte) (s : State) :
    exec (if key = [] then .initPlain outlen else .initKeyed outlen key) s = exec (.initKeyed outlen key) s := by
  split
  · next hk => rw [hk, emptyKeyIsInitPlain]
  · rfl

/-- INIT_KEYED with legal lengths starts a computation with the key block, if there is a key, in front (R149). -/
theorem streaming_initKeyed {outlen : Byte} {key : List Byte}
    (hl : 1 ≤ outlen.toNat ∧ outlen.toNat ≤ 64 ∧ key.length ≤ 64) (s : State) :
    ∃ u, exec (.initKeyed outlen key) s = .next (returnOk [] u) ∧
      Streaming (plainParam outlen key.length) false (if key = [] then [] else key ++ zeros (128 - key.length)) u := by
  refine ⟨_, exec_initKeyed_of_legal hl s, ?_⟩
  have hinit := streaming_initFromParam (plainParam outlen key.length) false s
  by_cases hk : key = []
  · rw [if_pos hk, if_neg (by simp [hk])]
    exact hinit
  · rw [if_neg hk, if_pos (List.length_pos_iff.2 hk)]
    exact hinit.absorbKey (by omega)

/-- Settles O51: the INIT starts the computation or fails; the chunks of the data are absorbed as one string. -/
theorem hashComputesBlake2b : Obligations.HashComputesBlake2b := by
  refine fun outlen key data s => ⟨fun hl => ?_, fun hl => ?_⟩
  · obtain ⟨u, hu, hs⟩ := streaming_initKeyed hl s
    obtain ⟨t, ht, herr, hout⟩ := ((hs.absorb data).returnOk []).exec_final
    rw [paramDigestLength_plainParam] at ht
    refine ⟨t, ?_, herr, hout⟩
    rw [hashCommands, runCommands_cons_of_ok ((exec_hashInit outlen key s).trans hu) (returnOk_err ..),
      runCommands_updates _ hs.absorbed.phase hs.absorbed.bufWf hs.buflen_le, (updateChunks_spec data).1,
      runCommands_cons_of_ok ht herr, runCommands]
  · have hinit := (exec_hashInit outlen key s).trans (exec_initKeyed_of_illegal hl s)
    have herr : (raise .invalidLength s).err = .invalidLength := raise_err ..
    exact ⟨_, runCommands_cons_of_err hinit (by rw [herr]; decide), herr, _, raise_output ..⟩

end Sys2Proof.Machine
